-- ==== Sys2Proof/Word.lean ====
section
/-! DEFINITION. The word types of the engine: 32-bit packet words, bytes of the BMP streams, 4-bit slot fields
(spec/00_scope.md R6, R7; spec/30_encoding.md R50). -/

namespace Sys2Proof

/-- One word of a command or response packet: 32 bits, bit 0 least significant (R6, R7). A binary32 operand is
such a word, read as its bit pattern (R53). -/
abbrev Word := BitVec 32

/-- One byte of SRC or SNK (R7). -/
abbrev Byte := BitVec 8

/-- A slot field of the header word, RD or RS: 4 bits (R50). -/
abbrev SlotIx := BitVec 4

end Sys2Proof
end

