-- ==== Sys2Proof/Config.lean ====
section
/-! DEFINITION. What an implementation fixes (spec/00_scope.md R6) and the one free value the spec leaves open
(R12; spec/93_implementation_defined.md U3). -/

namespace Sys2Proof.Config

/-- The least and the greatest number of buffer slots an implementation may have (R6). -/
def nbufMin : Nat := 2
/-- See `nbufMin`. -/
def nbufMax : Nat := 16

/-- The default number of buffer slots (R6). A machine's own number is the length of its buffer file
(log entry 2). -/
def nbufDefault : Nat := 2

/-- The least capacity an implementation may give a slot (R6). -/
def pbCapMin : Nat := 4096

/-- The default capacity of a slot in pixels (R6). A machine's own capacity is `State.pbCap` (log entry 2). -/
def pbCapDefault : Nat := 4096

/-- The largest kernel side, `M_MAX` (R6). -/
def mMax : Nat := 9

/-- The largest width or height: every one enters as a signed 32-bit value (R16). -/
def dimMax : Nat := 2 ^ 31 - 1

/-- `FILE_HDR`, bytes of the BMP file header (R6). -/
def fileHdr : Nat := 14

/-- `INFO_HDR`, bytes of the BMP info header (R6). -/
def infoHdr : Nat := 40

/-- `PIX_OFF`, offset of the pixel data (R6). -/
def pixOff : Nat := 54

/-- FREE VALUE: sign (bit 22) and payload (bits 21:0) of the `n`-th NaN the arithmetic delivers. The spec fixes
that such a result is a quiet NaN and leaves its sign and payload open (R12, U3; log entries 4 and 5). It has no
body, so nothing about it can be proved. -/
opaque freeNan : Nat → BitVec 23

end Sys2Proof.Config
end

