-- ==== Sys2Proof/Syntax.lean ====
section
/-! DEFINITION. The eight commands of spec/opcode_table.json as syntax (spec/30_encoding.md R51, R55). Operand words
are kept as they stand in the packet; the meanings read them as integers (R52) or as binary32 bit patterns (R53). -/

namespace Sys2Proof

/-- One command. `rd` is the destination slot, `rs` the source slot (R50). -/
inductive Instr where
  /-- PB_CREATE rd, width, height (R73). -/
  | pbCreate (rd : SlotIx) (width height : Word)
  /-- PB_GET rs, x, y (R74). -/
  | pbGet (rs : SlotIx) (x y : Word)
  /-- PB_SET rd, x, y, r, g, b (R75). -/
  | pbSet (rd : SlotIx) (x y r g b : Word)
  /-- PB_WIDTH rs (R76). -/
  | pbWidth (rs : SlotIx)
  /-- PB_HEIGHT rs (R77). -/
  | pbHeight (rs : SlotIx)
  /-- BMP_DECODE rd; SRC is a side operand (R85). -/
  | bmpDecode (rd : SlotIx)
  /-- BMP_ENCODE rs; SNK_OK is a side operand (R90). -/
  | bmpEncode (rs : SlotIx)
  /-- CONV_APPLY rd, rs, k: the kernel is the list of words after the header, of any length (R54, R102). -/
  | convApply (rd rs : SlotIx) (k : List Word)
deriving DecidableEq, Repr

namespace Instr

/-- The destination slot of a command that has one. PB_SET names the buffer it changes in RD (R55). -/
def rd? : Instr → Option SlotIx
  | .pbCreate rd _ _ => some rd
  | .pbGet _ _ _ => none
  | .pbSet rd _ _ _ _ _ => some rd
  | .pbWidth _ => none
  | .pbHeight _ => none
  | .bmpDecode rd => some rd
  | .bmpEncode _ => none
  | .convApply rd _ _ => some rd

/-- The source slot of a command that has one (R55). -/
def rs? : Instr → Option SlotIx
  | .pbCreate _ _ _ => none
  | .pbGet rs _ _ => some rs
  | .pbSet _ _ _ _ _ _ => none
  | .pbWidth rs => some rs
  | .pbHeight rs => some rs
  | .bmpDecode _ => none
  | .bmpEncode rs => some rs
  | .convApply _ rs _ => some rs

/-- A buffer-producing command writes a whole new buffer to its destination slot (spec/00_scope.md, glossary; R17). -/
def producesBuffer : Instr → Bool
  | .pbCreate _ _ _ => true
  | .pbGet _ _ _ => false
  | .pbSet _ _ _ _ _ _ => false
  | .pbWidth _ => false
  | .pbHeight _ => false
  | .bmpDecode _ => true
  | .bmpEncode _ => false
  | .convApply _ _ _ => true

end Instr

end Sys2Proof
end

