-- ==== Sys2Proof/WellFormed.lean ====
section
/-! DEFINITION. When a command is legal on a block of `nbuf` slots: tests 6 and 7 of spec/30_encoding.md R56. (Tests 1
to 5 are about packet words and cannot be failed by syntax.) -/

namespace Sys2Proof.Instr

/-- A slot field names a slot of a block with `nbuf` slots (R58). -/
def slotNamed (nbuf : Nat) (i : SlotIx) : Bool := decide (i.toNat < nbuf)

/-- Test 6 of R56: every slot field the command uses names a slot (R58). -/
def slotsExist (nbuf : Nat) : Instr → Bool
  | .pbCreate rd _ _ => slotNamed nbuf rd
  | .pbGet rs _ _ => slotNamed nbuf rs
  | .pbSet rd _ _ _ _ _ => slotNamed nbuf rd
  | .pbWidth rs => slotNamed nbuf rs
  | .pbHeight rs => slotNamed nbuf rs
  | .bmpDecode rd => slotNamed nbuf rd
  | .bmpEncode rs => slotNamed nbuf rs
  | .convApply rd rs _ => slotNamed nbuf rd && slotNamed nbuf rs

/-- Test 7 of R56: CONV_APPLY does not run in place (R135). -/
def slotsDiffer : Instr → Bool
  | .pbCreate _ _ _ => true
  | .pbGet _ _ _ => true
  | .pbSet _ _ _ _ _ _ => true
  | .pbWidth _ => true
  | .pbHeight _ => true
  | .bmpDecode _ => true
  | .bmpEncode _ => true
  | .convApply rd rs _ => decide (rd ≠ rs)

/-- The command is legal on a block of `nbuf` slots. -/
def wellFormed (nbuf : Nat) (i : Instr) : Bool := i.slotsExist nbuf && i.slotsDiffer

end Sys2Proof.Instr
end

