-- ==== Sys2Proof/Decode.lean ====
section
/-! DEFINITION. The packet decoder (spec/30_encoding.md R49 to R59), total on every list of words and rejecting by name,
and the encoder written from the same tables. -/

namespace Sys2Proof

/-- Why a packet is illegal: the seven tests of R56, in their order. All seven give the same error code and the same
state change, so the name is not visible to the host (R120). -/
inductive Illegal where
  /-- Test 1: the packet has no word. -/
  | emptyPacket
  /-- Test 2: a reserved bit of the header is set. -/
  | reservedBits
  /-- Test 3: OPC is none of the eight. -/
  | unknownOpcode
  /-- Test 4: a slot field the command does not use is not 0 (R57). -/
  | unusedSlotField
  /-- Test 5: the packet has another length than its format (R51). -/
  | wrongLength
  /-- Test 6: a slot field the command uses names no slot (R58). -/
  | noSuchSlot
  /-- Test 7: CONV_APPLY with RD = RS (R135). -/
  | sameSlot
deriving DecidableEq, Repr

/-- The eight operations of R55. -/
inductive Opcode where
  | pbCreate | pbGet | pbSet | pbWidth | pbHeight | bmpDecode | bmpEncode | convApply
deriving DecidableEq, Repr

/-- OPC of an operation (R55). -/
def Opcode.byte : Opcode → BitVec 8
  | .pbCreate => 0x01
  | .pbGet => 0x02
  | .pbSet => 0x03
  | .pbWidth => 0x04
  | .pbHeight => 0x05
  | .bmpDecode => 0x10
  | .bmpEncode => 0x11
  | .convApply => 0x20

/-- The operation an OPC field names; none for every other value, 0x00 among them (R55, test 3 of R56). -/
def Opcode.ofByte (b : BitVec 8) : Option Opcode :=
  if b = 0x01 then some .pbCreate
  else if b = 0x02 then some .pbGet
  else if b = 0x03 then some .pbSet
  else if b = 0x04 then some .pbWidth
  else if b = 0x05 then some .pbHeight
  else if b = 0x10 then some .bmpDecode
  else if b = 0x11 then some .bmpEncode
  else if b = 0x20 then some .convApply
  else none

/-- The operation uses its RD field (R55). -/
def Opcode.usesRd : Opcode → Bool
  | .pbCreate | .pbSet | .bmpDecode | .convApply => true
  | .pbGet | .pbWidth | .pbHeight | .bmpEncode => false

/-- The operation uses its RS field (R55). -/
def Opcode.usesRs : Opcode → Bool
  | .pbGet | .pbWidth | .pbHeight | .bmpEncode | .convApply => true
  | .pbCreate | .pbSet | .bmpDecode => false

/-- `match` of R55: the header of the operation with both slot fields 0. -/
def Opcode.matchWord (op : Opcode) : Word := op.byte.setWidth 32

/-- `mask` of R55: zeros exactly over the slot fields the operation uses. -/
def Opcode.maskWord (op : Opcode) : Word :=
  match op.usesRd, op.usesRs with
  | true, true => 0xFFFF00FF
  | true, false => 0xFFFFF0FF
  | false, true => 0xFFFF0FFF
  | false, false => 0xFFFFFFFF

/-- Header fields (R50). -/
def headerOpc (h : Word) : BitVec 8 := h.extractLsb' 0 8
/-- RD, bits 11:8 (R50). -/
def headerRd (h : Word) : SlotIx := h.extractLsb' 8 4
/-- RS, bits 15:12 (R50). -/
def headerRs (h : Word) : SlotIx := h.extractLsb' 12 4
/-- RSV, bits 31:16 (R50). -/
def headerRsv (h : Word) : BitVec 16 := h.extractLsb' 16 16

/-- The command of an operation, its slot fields and its operand words; none when the number of operand words is
not the format's (R51, R54; test 5 of R56). -/
def shape (op : Opcode) (rd rs : SlotIx) (ops : List Word) : Option Instr :=
  match op, ops with
  | .pbCreate, [a, b] => some (.pbCreate rd a b)
  | .pbGet, [a, b] => some (.pbGet rs a b)
  | .pbSet, [x, y, r, g, b] => some (.pbSet rd x y r g b)
  | .pbWidth, [] => some (.pbWidth rs)
  | .pbHeight, [] => some (.pbHeight rs)
  | .bmpDecode, [] => some (.bmpDecode rd)
  | .bmpEncode, [] => some (.bmpEncode rs)
  | .convApply, k => some (.convApply rd rs k)
  | .pbCreate, _ => none
  | .pbGet, _ => none
  | .pbSet, _ => none
  | .pbWidth, _ => none
  | .pbHeight, _ => none
  | .bmpDecode, _ => none
  | .bmpEncode, _ => none

/-- Tests 6 and 7 of R56, on a command whose packet passed tests 1 to 5. -/
def checkSlots (nbuf : Nat) (i : Instr) : Except Illegal Instr :=
  if i.slotsExist nbuf = false then .error .noSuchSlot
  else if i.slotsDiffer = false then .error .sameSlot
  else .ok i

/-- Tests 4 to 7 of R56, on a header whose operation is known. -/
def decodeFields (nbuf : Nat) (op : Opcode) (rd rs : SlotIx) (ops : List Word) : Except Illegal Instr :=
  if (op.usesRd = false ∧ rd ≠ 0#4) ∨ (op.usesRs = false ∧ rs ≠ 0#4) then .error .unusedSlotField
  else match shape op rd rs ops with
    | none => .error .wrongLength
    | some i => checkSlots nbuf i

/-- The decoder of a block with `nbuf` slots: every packet is exactly one legal command or illegal (R49, R56). -/
def decode (nbuf : Nat) (pk : List Word) : Except Illegal Instr :=
  match pk with
  | [] => .error .emptyPacket
  | h :: ops =>
    if headerRsv h ≠ 0#16 then .error .reservedBits
    else match Opcode.ofByte (headerOpc h) with
      | none => .error .unknownOpcode
      | some op => decodeFields nbuf op (headerRd h) (headerRs h) ops

/-! ## The encoder -/

/-- A header word from its fields, RSV = 0 (R50). -/
def header (op : Opcode) (rd rs : SlotIx) : Word := (0#16 ++ rs) ++ (rd ++ op.byte)

/-- The operation of a command (R55). -/
def Instr.opcode : Instr → Opcode
  | .pbCreate _ _ _ => .pbCreate
  | .pbGet _ _ _ => .pbGet
  | .pbSet _ _ _ _ _ _ => .pbSet
  | .pbWidth _ => .pbWidth
  | .pbHeight _ => .pbHeight
  | .bmpDecode _ => .bmpDecode
  | .bmpEncode _ => .bmpEncode
  | .convApply _ _ _ => .convApply

/-- The packet of a command (R50, R51; the packet column of R67). A slot field the command does not use is 0 (R57). -/
def encode : Instr → List Word
  | .pbCreate rd w h => [header .pbCreate rd 0#4, w, h]
  | .pbGet rs x y => [header .pbGet 0#4 rs, x, y]
  | .pbSet rd x y r g b => [header .pbSet rd 0#4, x, y, r, g, b]
  | .pbWidth rs => [header .pbWidth 0#4 rs]
  | .pbHeight rs => [header .pbHeight 0#4 rs]
  | .bmpDecode rd => [header .bmpDecode rd 0#4]
  | .bmpEncode rs => [header .bmpEncode 0#4 rs]
  | .convApply rd rs k => header .convApply rd rs :: k

/-! ## Packets written as one number (the opcode table's bit numbering) -/

/-- The least number of words of a packet whose header is `h`: the format's length, 1 for format K and for a header
that names no operation (R51). -/
def packetWords (h : Word) : Nat :=
  match Opcode.ofByte (headerOpc h) with
  | some .pbCreate | some .pbGet => 3
  | some .pbSet => 6
  | some .pbWidth | some .pbHeight | some .bmpDecode | some .bmpEncode | some .convApply | none => 1

/-- `n` words of a number, the least significant word first. -/
def wordsOf : Nat → Nat → List Word
  | 0, _ => []
  | n + 1, w => BitVec.ofNat 32 w :: wordsOf n (w / 2 ^ 32)

/-- The packet whose bits are `w`, numbered as spec/opcode_table.json numbers them (bit 0 is bit 0 of the header
word, the next word's bits count on from 32). Bits from `nbits` up are 0, and the packet has at least the words its
format asks for (log entry 14). -/
def tablePacket (nbits w : Nat) : List Word :=
  let v := w % 2 ^ nbits
  wordsOf (max (packetWords (BitVec.ofNat 32 v)) ((nbits + 31) / 32)) v

/-- What the decoder reads from the packet whose bits are `w`, on a block with the default number of slots. -/
def decodeTableWord (nbits w : Nat) : Option Instr :=
  match decode Config.nbufDefault (tablePacket nbits w) with
  | .ok i => some i
  | .error _ => none

end Sys2Proof
end

