-- ==== Sys2Proof/Machine/State.lean ====
section
/-! DEFINITION. The state of the engine as plain data (spec/10_state.md), the host's side of its interface
(spec/00_scope.md R5; spec/70_reset_and_hazards.md R142), and the state after reset (R30, R131). -/

namespace Sys2Proof.Machine

/-- A colour: three binary32 bit patterns (R13, R18). -/
structure Color where
  r : Word
  g : Word
  b : Word
deriving DecidableEq, Repr

/-- `BLACK = (+0.0, +0.0, +0.0)` (R13). -/
def Color.black : Color := ⟨0, 0, 0⟩

/-- One PixelBuffer `Buf(W, H, px)`: pixel (x, y) is element `y*W + x` of `px` (R16). -/
structure Buf where
  width : Nat
  height : Nat
  px : List Color
deriving DecidableEq, Repr

/-- One slot of the buffer file (R15). -/
inductive Slot where
  | empty
  | buf (b : Buf)
deriving DecidableEq, Repr

/-- The invariant of a stored buffer on a block of capacity `cap` (R16): both sides at least 1 and at most 2^31-1, the
sequence exactly W*H long, and W*H at most the capacity. -/
def Buf.wf (cap : Nat) (b : Buf) : Bool :=
  decide (1 ≤ b.width) && decide (1 ≤ b.height) && decide (b.width ≤ Config.dimMax)
    && decide (b.height ≤ Config.dimMax) && decide (b.px.length = b.width * b.height)
    && decide (b.width * b.height ≤ cap)

/-- A slot is well-formed when it is Empty or holds a well-formed buffer. -/
def Slot.wf (cap : Nat) : Slot → Bool
  | .empty => true
  | .buf b => b.wf cap

/-- The pixel memory's canonical form: every slot of the buffer file is well-formed (R16; log entry 13). -/
def Memory.wf (cap : Nat) (pb : List Slot) : Bool := pb.all (Slot.wf cap)

/-- What the host does between commands (R5, R121): present a packet with its operand streams, or reset the block. -/
inductive HostEvent where
  /-- A packet with SRC (`none` is `Absent`, R27) and SNK_OK (R28). -/
  | command (packet : List Word) (src : Option (List Byte)) (snkOk : Bool)
  /-- Reset (R131). -/
  | reset
deriving DecidableEq, Repr

/-- What one command leaves for the host: its response packet (R60) and the bytes it wrote to SNK (R28), none for every
command but a successful BMP_ENCODE. -/
structure Reply where
  words : List Word
  snk : List Byte
deriving DecidableEq, Repr

/-- The state of a run of the engine. -/
structure State where
  /-- The buffer file `pb[0..NBUF-1]` (R15). NBUF is its length (log entry 2). -/
  pb : List Slot
  /-- STATUS (R21). -/
  status : BitVec 8
  /-- PB_CAP, fixed for the machine (R6; log entry 2). No step writes it. -/
  pbCap : Nat
  /-- SRC of the command last presented; `none` is `Absent` (R27; log entry 3). The host's operand, not a register. -/
  src : Option (List Byte)
  /-- SNK_OK of the command last presented (R28; log entry 3). The host's operand, not a register. -/
  snkOk : Bool
  /-- What the host is still to do, next first: the rest of the run (R142; log entry 1). -/
  inbox : List HostEvent
  /-- The replies of the run so far, oldest first (R142; log entry 1). -/
  outbox : List Reply
  /-- The MODEL's own counter: how many free values have been drawn for NaN results (R12, U3; log entry 4). -/
  draws : Nat
deriving DecidableEq, Repr

/-- NBUF, the number of slots the block holds (R15). -/
def State.nbuf (s : State) : Nat := s.pb.length

/-- The block right after reset, with the default parameters and nothing presented yet (R30, R131). -/
def State.reset : State where
  pb := List.replicate Config.nbufDefault .empty
  status := 0
  pbCap := Config.pbCapDefault
  src := none
  snkOk := false
  inbox := []
  outbox := []
  draws := 0

/-- Reasons to stop with a fault: there are none. Every error of this hardware is a completion code with a next state
(R113, R118), and every command ends with a response (R141). Safe: the model stops nowhere. -/
inductive Fault where
deriving DecidableEq, Repr

/-- Reasons to refuse. -/
inductive Refusal where
  /-- An instruction whose arm of exec has no meaning yet. No arm raises it: every command has its meaning. Safe. -/
  | notModelled (mnemonic : String)
deriving DecidableEq, Repr

end Sys2Proof.Machine
end

