-- ==== Sys2Proof/Machine/Flags.lean ====
section
/-! DEFINITION. Completion codes, the block's only flag-like values (spec/60_exceptions.md R113; spec/10_state.md R21,
R23: there are no condition codes and no floating-point flags). -/

namespace Sys2Proof.Machine

/-- The error kinds (R113, R115). -/
inductive ErrKind where
  | fileNotFound
  | invalidFormat
  | invalidDimension
  | outOfBounds
  | invalidKernel
  | illegalCommand
  | emptyBuffer
  | capacityExceeded
deriving DecidableEq, Repr

/-- The completion code of success (R113). -/
def codeOk : BitVec 8 := 0

/-- The completion code of an error kind (R113). -/
def errCode : ErrKind → BitVec 8
  | .fileNotFound => 1
  | .invalidFormat => 2
  | .invalidDimension => 3
  | .outOfBounds => 4
  | .invalidKernel => 5
  | .illegalCommand => 6
  | .emptyBuffer => 7
  | .capacityExceeded => 8

/-- Word 0 of a response: bits 7:0 the completion code, bits 31:8 zero (R60). -/
def statusWord (c : BitVec 8) : Word := c.setWidth 32

end Sys2Proof.Machine
end

