-- ==== Sys2Proof/Machine/Float.lean ====
section
/-! DEFINITION. The arithmetic of channels and weights: IEEE 754 binary32, round to nearest with ties to even, every
operation rounded once, subnormals kept, nothing fused (spec/00_scope.md R6, R12; spec/30_encoding.md R53;
spec/93_implementation_defined.md G1; log entry 6). Values are computed exactly over the integers and rounded once, at
the end. -/

namespace Sys2Proof.Machine

/-- What a binary32 pattern stands for (R53): NaN, an infinity, or (-1)^neg * m * 2^e. -/
inductive FVal where
  | nan
  | inf (neg : Bool)
  | fin (neg : Bool) (m : Nat) (e : Int)
deriving DecidableEq, Repr

/-- Bit 31 (R53). -/
def fSign (w : Word) : Bool := w.msb

/-- Bits 30:23, the biased exponent (R53). -/
def fExp (w : Word) : Nat := w.toNat / 2 ^ 23 % 2 ^ 8

/-- Bits 22:0, the fraction (R53). -/
def fFrac (w : Word) : Nat := w.toNat % 2 ^ 23

/-- The value of a pattern. A biased exponent of 0 is a subnormal or a zero, 255 an infinity or a NaN; otherwise the
significand has its leading bit, and one unit of it weighs 2^(exponent - 150) (R53, G1). -/
def unpack (w : Word) : FVal :=
  if fExp w = 255 then (if fFrac w = 0 then .inf (fSign w) else .nan)
  else if fExp w = 0 then .fin (fSign w) (fFrac w) (-149)
  else .fin (fSign w) (fFrac w + 2 ^ 23) ((fExp w : Int) - 150)

/-- The pattern is a NaN. -/
def isNan (w : Word) : Bool := decide (fExp w = 255) && decide (fFrac w ≠ 0)

/-- The pattern with sign `neg` and low 31 bits `mag`; a magnitude past the greatest finite one is an infinity. -/
def packMag (neg : Bool) (mag : Nat) : Word :=
  BitVec.ofNat 32 ((if neg then 2 ^ 31 else 0) + min mag 0x7F800000)

/-- The zero of a sign. -/
def fZero (neg : Bool) : Word := packMag neg 0

/-- The infinity of a sign. -/
def fInf (neg : Bool) : Word := packMag neg 0x7F800000

/-- `n / 2^r` rounded to the nearest integer, a tie to the even one. -/
def roundShift (n r : Nat) : Nat :=
  let q := n / 2 ^ r
  let rem := 2 * (n % 2 ^ r)
  if 2 ^ r < rem ∨ (rem = 2 ^ r ∧ q % 2 = 1) then q + 1 else q

/-- The exponent of the unit in the last place of the binary32 value nearest to `n * 2^k`, `n > 0`: 24 significant
bits, and never below the subnormal unit 2^-149. -/
def ulpExp (n : Nat) (k : Int) : Int := max (k + n.log2 - 23) (-149)

/-- The binary32 pattern nearest to (-1)^neg * n * 2^k, ties to even (R12). The significand counts units of
2^(ulpExp n k); adding it to the exponent's place value carries a rounding up into the exponent. -/
def roundPack (neg : Bool) (n : Nat) (k : Int) : Word :=
  if n = 0 then fZero neg
  else
    let u := ulpExp n k
    let m := if u ≤ k then n * 2 ^ (k - u).toNat else roundShift n (u - k).toNat
    packMag neg ((u + 149).toNat * 2 ^ 23 + m)

/-- A significand with its sign, as an integer. -/
def signed (neg : Bool) (m : Nat) : Int := if neg then -(m : Int) else m

/-- The exact sum of two finite values is `alignedSum * 2^(min e f)`. -/
def alignedSum (a : Bool) (m : Nat) (e : Int) (b : Bool) (n : Nat) (f : Int) : Int :=
  signed a (m * 2 ^ (e - min e f).toNat) + signed b (n * 2 ^ (f - min e f).toNat)

/-- Addition; `none` stands for a NaN result (R12). An exact zero sum is +0.0 unless both operands are -0.0. -/
def addVal : FVal → FVal → Option Word
  | .nan, _ => none
  | _, .nan => none
  | .inf a, .inf b => if a = b then some (fInf a) else none
  | .inf a, .fin _ _ _ => some (fInf a)
  | .fin _ _ _, .inf b => some (fInf b)
  | .fin a m e, .fin b n f =>
    let t := alignedSum a m e b n f
    if t = 0 then some (fZero (a && b)) else some (roundPack (decide (t < 0)) t.natAbs (min e f))

/-- Multiplication; `none` stands for a NaN result (R12). -/
def mulVal : FVal → FVal → Option Word
  | .nan, _ => none
  | _, .nan => none
  | .inf a, .inf b => some (fInf (a != b))
  | .inf a, .fin b n _ => if n = 0 then none else some (fInf (a != b))
  | .fin a m _, .inf b => if m = 0 then none else some (fInf (a != b))
  | .fin a m e, .fin b n f => some (roundPack (a != b) (m * n) (e + f))

/-- How many bits the dividend is shifted up before a division. With operands below 2^24 the quotient keeps at least
26 bits, so one more bit that says whether a remainder is left rounds it as the exact quotient rounds. -/
def divShift : Nat := 50

/-- The quotient `m / n` scaled by 2^(divShift + 1), its last bit set when a remainder is left. -/
def quotient (m n : Nat) : Nat :=
  2 * (m * 2 ^ divShift / n) + (if m * 2 ^ divShift % n = 0 then 0 else 1)

/-- Division; `none` stands for a NaN result (R12). A finite value over zero is an infinity (R23: the default result,
no trap). -/
def divVal : FVal → FVal → Option Word
  | .nan, _ => none
  | _, .nan => none
  | .inf _, .inf _ => none
  | .inf a, .fin b _ _ => some (fInf (a != b))
  | .fin a _ _, .inf b => some (fZero (a != b))
  | .fin a m e, .fin b n f =>
    if n = 0 then (if m = 0 then none else some (fInf (a != b)))
    else some (roundPack (a != b) (quotient m n) (e - f - divShift - 1))

/-- The quiet NaN with the `d`-th free sign and payload (R12, U3; log entries 4 and 5). -/
def quietNan (d : Nat) : Word :=
  let p := Config.freeNan d
  (p.extractLsb' 22 1 ++ 0xFF#8) ++ (1#1 ++ p.extractLsb' 0 22)

/-- The pattern of a result, a NaN result being the free quiet NaN number `d`. -/
def nanOr (d : Nat) (r : Option Word) : Word := r.getD (quietNan d)

/-- `fadd(a, b)` (R12); `d` numbers the free value used if the result is a NaN. -/
def fadd (d : Nat) (a b : Word) : Word := nanOr d (addVal (unpack a) (unpack b))

/-- `fmul(a, b)` (R12). -/
def fmul (d : Nat) (a b : Word) : Word := nanOr d (mulVal (unpack a) (unpack b))

/-- `fdiv(a, b)` (R12). -/
def fdiv (d : Nat) (a b : Word) : Word := nanOr d (divVal (unpack a) (unpack b))

/-- The order of non-NaN patterns: the signed magnitude, so that -0.0 and +0.0 are equal. -/
def fKey (w : Word) : Int := signed (fSign w) (w.toNat % 2 ^ 31)

/-- `a > b`, false when either is a NaN (R12). -/
def fgt (a b : Word) : Bool := !isNan a && !isNan b && decide (fKey b < fKey a)

/-- `a >= b`, false when either is a NaN; -0.0 >= 0.0 holds (R12). -/
def fge (a b : Word) : Bool := !isNan a && !isNan b && decide (fKey b ≤ fKey a)

/-- `of_u8(b)`: the value equal to the integer `b` (R12, G5). -/
def ofU8 (b : Byte) : Word := roundPack false b.toNat 0

/-- 1.0 (R84). -/
def fOne : Word := 0x3F800000

/-- 255.0, QSCALE (R6). -/
def f255 : Word := 0x437F0000

/-- `trunc_u8(v)`: the integer part of v as a byte (R12). The spec uses it only with 0 <= v <= 255 and v not a NaN;
elsewhere this gives the low byte of the magnitude's integer part, or 0, and no command gets there (log entry 12). -/
def truncU8 (v : Word) : Byte :=
  match unpack v with
  | .nan => 0
  | .inf _ => 0
  | .fin _ m e => BitVec.ofNat 8 (if 0 ≤ e then m * 2 ^ e.toNat else m / 2 ^ (-e).toNat)

end Sys2Proof.Machine
end

