-- ==== Sys2Proof/Machine/Operands.lean ====
section
/-! DEFINITION. Operand forms: signed integer words, byte order of the streams, stream reads, pixel addressing and
colours (spec/00_scope.md R7, R8, R10, R13; spec/20_memory.md R33 to R41; spec/40_pixelbuffer.md R72). -/

namespace Sys2Proof.Machine

/-- `s32(w)`: the word read as two's complement (R7, R52). -/
def s32 (w : Word) : Int := w.toInt

/-- `le16(v)` (R7). -/
def le16 (v : Nat) : List Byte := [BitVec.ofNat 8 v, BitVec.ofNat 8 (v / 256)]

/-- `le32(v)` of `u32(v)`: four bytes, least significant first (R7, R36). -/
def le32 (v : Nat) : List Byte :=
  [BitVec.ofNat 8 v, BitVec.ofNat 8 (v / 256), BitVec.ofNat 8 (v / 65536), BitVec.ofNat 8 (v / 16777216)]

/-- `unle32(b0, b1, b2, b3)` as a 32-bit word: `b0` is the least significant byte (R7, R36, R38). -/
def unle32 (b0 b1 b2 b3 : Byte) : Word :=
  BitVec.ofNat 32 (b0.toNat + 256 * b1.toNat + 65536 * b2.toNat + 16777216 * b3.toNat)

/-- `clampi(v, lo, hi)` (R8). -/
def clampi (v lo hi : Int) : Int := if v < lo then lo else if hi < v then hi else v

/-- `isqrt(n)`: the largest `m` with `m*m <= n` (R8). -/
def isqrt : Nat → Nat
  | 0 => 0
  | n + 1 => if (isqrt n + 1) * (isqrt n + 1) ≤ n + 1 then isqrt n + 1 else isqrt n

/-- Byte `off` of a sequence. A position past its end reads 0; `memRead` answers only sequences long enough. -/
def byteAt (b : List Byte) (off : Nat) : Byte := b.getD off 0

/-- `MemRead(off, n)` of R10 on a present stream: `n` bytes from offset `off`, or InvalidFormat when the stream ends
before them. -/
def memRead (src : List Byte) (off n : Nat) : Except ErrKind (List Byte) :=
  if off + n ≤ src.length then .ok ((src.drop off).take n) else .error .invalidFormat

/-- Element `k` of a pixel sequence. The sequence of a well-formed buffer has every index that is used; past the end
this reads BLACK (log entry 11). -/
def pxAt (px : List Color) (k : Nat) : Color := px.getD k Color.black

/-- The row-major index of an in-bounds pixel of a buffer `w` wide (R10, R34). -/
def pxIndex (w x y : Nat) : Nat := y * w + x

/-- `PbGet(B, x, y)`: the pixel at the coordinates clamped to the edge, each axis on its own, over the integers (R72). -/
def pbGet (b : Buf) (x y : Int) : Color :=
  let cx := clampi x 0 ((b.width : Int) - 1)
  let cy := clampi y 0 ((b.height : Int) - 1)
  pxAt b.px (pxIndex b.width cx.toNat cy.toNat)

/-- `cscale(c, w)`: channel by channel (R13). The three products take the free values `d`, `d+1`, `d+2`. -/
def cscale (d : Nat) (c : Color) (w : Word) : Color := ⟨fmul d c.r w, fmul (d + 1) c.g w, fmul (d + 2) c.b w⟩

/-- `cadd(a, b)`: channel by channel (R13). The three sums take the free values `d`, `d+1`, `d+2`. -/
def cadd (d : Nat) (a b : Color) : Color := ⟨fadd d a.r b.r, fadd (d + 1) a.g b.g, fadd (d + 2) a.b b.b⟩

/-- The answers of `f` on the elements of a list, in order, or the first error. -/
def collect {ε α β : Type} (f : α → Except ε β) : List α → Except ε (List β)
  | [] => .ok []
  | a :: as =>
    match f a with
    | .error e => .error e
    | .ok b =>
      match collect f as with
      | .error e => .error e
      | .ok bs => .ok (b :: bs)

end Sys2Proof.Machine
end

