-- ==== Sys2Proof/Machine/Ops.lean ====
section
/-! DEFINITION. The named operations every command is made of: reading and writing a slot, completing with success,
completing with an error ("trap entry", spec/60_exceptions.md R118), the common prologue (spec/40_pixelbuffer.md R71),
making a buffer (R79), and what the host does between commands (spec/70_reset_and_hazards.md R131, R134, R137). -/

namespace Sys2Proof.Machine

/-- `pb[i]` (R9). An index that names no slot reads Empty; every command tests its indices first (R58). -/
def State.slot (s : State) (i : SlotIx) : Slot := s.pb.getD i.toNat .empty

/-- `pb[i] <- v` (R9). No other slot changes (R15). -/
def State.setSlot (s : State) (i : SlotIx) (v : Slot) : State := { s with pb := s.pb.set i.toNat v }

/-- The end of every command: STATUS takes the completion code (R21) and the host gets one response packet (R60) and
the SNK bytes of the command (R28). -/
def State.answer (s : State) (c : BitVec 8) (results : List Word) (snk : List Byte) : State :=
  { s with status := c, outbox := s.outbox ++ [⟨statusWord c :: results, snk⟩] }

/-- `complete(r1, ..., rk)` of R11: success, with the command's result words and SNK bytes (R117). -/
def State.complete (s : State) (results : List Word) (snk : List Byte) : State := s.answer codeOk results snk

/-- `raise e` of R11, the one error completion (R118): STATUS and the response hold the code, SNK gets nothing, and
where the command is a legal buffer-producing one its destination `rd` becomes Empty, whatever it held. There is no
handler and nothing to return to (R122). -/
def State.raise (s : State) (e : ErrKind) (rd : Option SlotIx) : State :=
  match rd with
  | some i => (s.setSlot i .empty).answer (errCode e) [] []
  | none => s.answer (errCode e) [] []

/-- The completion of an illegal packet: IllegalCommand, no slot touched (R56, R118). -/
def State.illegal (s : State) : State := s.raise .illegalCommand none

/-- A command on its way: a next state, since no command stops the machine (R141). -/
abbrev Result := Host.Outcome State Fault Refusal

/-- The first part of the prologue of R71: a command runs only if it is legal on this block; a command whose slots do
not exist or, for CONV_APPLY, coincide, ends with IllegalCommand (R56 tests 6 and 7, R102; log entry 9). -/
def ifLegal (i : Instr) (s : State) (run : State) : Result :=
  if i.wellFormed s.nbuf then .next run else .next s.illegal

/-- The second part of the prologue of R71: the buffer of slot `i`, or EmptyBuffer. `rd` is the destination that an
error of this command empties, if it has one (R118). -/
def withBuffer (s : State) (i : SlotIx) (rd : Option SlotIx) (run : Buf → State) : State :=
  match s.slot i with
  | .empty => s.raise .emptyBuffer rd
  | .buf b => run b

/-- A buffer-producing command's last steps: `pb[rd] <- B` and success, or the error that its computation ended with
(R11, R117, R118). -/
def State.store (s : State) (rd : SlotIx) (r : Except ErrKind Buf) : State :=
  match r with
  | .ok b => (s.setSlot rd (.buf b)).complete [] []
  | .error e => s.raise e (some rd)

/-- `PbCreate(W, H)`: an all-black buffer, or InvalidDimension, or CapacityExceeded, in that order; W*H is compared
over the integers (R79). -/
def pbCreate (cap : Nat) (w h : Int) : Except ErrKind Buf :=
  if w ≤ 0 ∨ h ≤ 0 then .error .invalidDimension
  else if (cap : Int) < w * h then .error .capacityExceeded
  else .ok ⟨w.toNat, h.toNat, List.replicate (w.toNat * h.toNat) Color.black⟩

/-- The host presents a command: its operand streams stand at the interface while it runs (R27, R28, R137), and `rest`
is what the host is still to do (R134). -/
def State.present (s : State) (src : Option (List Byte)) (snkOk : Bool) (rest : List HostEvent) : State :=
  { s with src := src, snkOk := snkOk, inbox := rest }

/-- Reset: every slot Empty, STATUS 0 (R30, R131). It is no command, so nothing is answered; `rest` is what the host is
still to do. -/
def State.resetBlock (s : State) (rest : List HostEvent) : State :=
  { s with pb := List.replicate s.nbuf .empty, status := 0, inbox := rest }

end Sys2Proof.Machine
end

