-- ==== Sys2Proof/Machine/BmpCodec.lean ====
section
/-! DEFINITION. The BMP codec commands (spec/41_bmpcodec.md) over the wire format of spec/30_encoding.md R61 to R65. -/

namespace Sys2Proof.Machine

/-- Padding bytes of a row (R81). -/
def pad (w : Nat) : Nat := (4 - 3 * w % 4) % 4

/-- Bytes of a row on the wire (R82). -/
def stride (w : Nat) : Nat := 3 * w + pad w

/-- Bytes of a whole image on the wire (R82). -/
def filesize (w h : Nat) : Nat := Config.pixOff + h * stride w

/-- `dec(b)`: a sample byte as a channel, one division by 255.0 (R83). The quotient is never a NaN, so the free value
named here is never used. -/
def dec (b : Byte) : Word := fdiv 0 (ofU8 b) f255

/-- `clamp01(c)`: values above 1.0 become 1.0, negative values and NaN become +0.0, -0.0 stays (R84). -/
def clamp01 (c : Word) : Word := if fgt c fOne then fOne else if fge c 0 then c else 0

/-- `quant(c)`: a channel as a sample byte; the product by 255.0 is rounded once, then its fraction is dropped (R84).
The product is never a NaN, so the free value named here is never used. -/
def quant (c : Word) : Byte := truncU8 (fmul 0 (clamp01 c) f255)

/-! ## Decode (R85 to R89, R95) -/

/-- Pixel `x` of stream row `y` of an image `w` wide: three bytes B, G, R (R63, R85, R87). -/
def decodePixel (src : List Byte) (w y x : Nat) : Except ErrKind Color :=
  match memRead src (Config.pixOff + y * stride w + 3 * x) 3 with
  | .error e => .error e
  | .ok t => .ok ⟨dec (byteAt t 2), dec (byteAt t 1), dec (byteAt t 0)⟩

/-- Stream row `y`: its pixels, then its padding, which must be present and whose value is ignored (R85, R87, R88). -/
def decodeRow (src : List Byte) (w y : Nat) : Except ErrKind (List Color) :=
  match collect (decodePixel src w y) (List.range w) with
  | .error e => .error e
  | .ok row =>
    match memRead src (Config.pixOff + y * stride w + 3 * w) (pad w) with
    | .error e => .error e
    | .ok _ => .ok row

/-- All rows: stream row k is buffer row k, with no vertical flip (R95). -/
def decodeRows (src : List Byte) (w h : Nat) : Except ErrKind (List Color) :=
  match collect (decodeRow src w) (List.range h) with
  | .error e => .error e
  | .ok rows => .ok rows.flatten

/-- A 4-byte little-endian signed field at offset `o` of the info header (R36, R62, R86). -/
def dimField (ih : List Byte) (o : Nat) : Int :=
  s32 (unle32 (byteAt ih o) (byteAt ih (o + 1)) (byteAt ih (o + 2)) (byteAt ih (o + 3)))

/-- The buffer of an image whose headers gave its width and height: the buffer is made, then every pixel is read
(R85, R86). -/
def decodeImage (cap : Nat) (src : List Byte) (w h : Int) : Except ErrKind Buf :=
  match pbCreate cap w h with
  | .error e => .error e
  | .ok b =>
    match decodeRows src b.width b.height with
    | .error e => .error e
    | .ok px => .ok { b with px := px }

/-- The headers of a present stream, then the image. Only the signature is checked; every other header field but width
and height is ignored (R65, R85, R86, R88). -/
def decodeStream (cap : Nat) (src : List Byte) : Except ErrKind Buf :=
  match memRead src 0 Config.fileHdr with
  | .error e => .error e
  | .ok fh =>
    if byteAt fh 0 ≠ 0x42 ∨ byteAt fh 1 ≠ 0x4D then .error .invalidFormat
    else
      match memRead src Config.fileHdr Config.infoHdr with
      | .error e => .error e
      | .ok ih => decodeImage cap src (dimField ih 4) (dimField ih 8)

/-- BMP_DECODE's computation: FileNotFound is for an Absent stream only (R85, R86). -/
def decodeBmp (cap : Nat) (src : Option (List Byte)) : Except ErrKind Buf :=
  match src with
  | none => .error .fileNotFound
  | some b => decodeStream cap b

/-- BMP_DECODE (R85). -/
def execBmpDecode (rd : SlotIx) (s : State) : Result :=
  ifLegal (.bmpDecode rd) s (s.store rd (decodeBmp s.pbCap s.src))

/-! ## Encode (R90 to R93, R95) -/

/-- The 14-byte file header (R61, R91). -/
def fileHeader (w h : Nat) : List Byte :=
  [0x42, 0x4D] ++ le32 (filesize w h) ++ [0, 0, 0, 0] ++ le32 Config.pixOff

/-- The 40-byte info header (R62, R92). -/
def infoHeader (w h : Nat) : List Byte :=
  le32 Config.infoHdr ++ le32 w ++ le32 h ++ le16 1 ++ le16 24 ++ le32 0 ++ List.replicate 20 0

/-- A pixel on the wire: blue, green, red (R63, R93). -/
def encodePixel (c : Color) : List Byte := [quant c.b, quant c.g, quant c.r]

/-- Row `y` on the wire: its pixels, then zero padding (R90, R93). -/
def encodeRow (b : Buf) (y : Nat) : List Byte :=
  (List.range b.width).flatMap (fun x => encodePixel (pxAt b.px (pxIndex b.width x y)))
    ++ List.replicate (pad b.width) 0

/-- The bytes BMP_ENCODE writes to SNK, in order; buffer row 0 comes first (R90, R95). -/
def encodeBmp (b : Buf) : List Byte :=
  fileHeader b.width b.height ++ infoHeader b.width b.height ++ (List.range b.height).flatMap (encodeRow b)

/-- BMP_ENCODE (R90). -/
def execBmpEncode (rs : SlotIx) (s : State) : Result :=
  ifLegal (.bmpEncode rs) s <| withBuffer s rs none fun b =>
    if s.snkOk then s.complete [] (encodeBmp b) else s.raise .fileNotFound none

end Sys2Proof.Machine
end

