-- ==== Sys2Proof/Machine/Convolution.lean ====
section
/-! DEFINITION. The convolution command (spec/42_convolution.md). -/

namespace Sys2Proof.Machine

/-- `KernelSide(L)`: the side of a kernel of `len` weights, an odd perfect square with side at most 9 (R98). -/
def kernelSide (len : Nat) : Except ErrKind Nat :=
  let m := isqrt len
  if m * m ≠ len ∨ m % 2 = 0 then .error .invalidKernel
  else if Config.mMax < m then .error .invalidKernel
  else .ok m

/-- The reversed kernel: `kr[i] = k[L-1-i]` (R99). -/
def reversed (k : List Word) : List Word := k.reverse

/-- Weight `i` of a kernel (R25). Every index used is below its length. -/
def weightAt (k : List Word) (i : Nat) : Word := k.getD i 0

/-- The source sample of kernel index `i` of a kernel of side `m` for the destination pixel (col, row) (R100). -/
def sample (b : Buf) (m col row i : Nat) : Color :=
  pbGet b ((col : Int) - (m / 2 : Nat) + (i % m : Nat)) ((row : Int) - (m / 2 : Nat) + (i / m : Nat))

/-- One term of a pixel's sum: the product is rounded, then added (R101). It does six operations, which take the free
values from `d` on (log entry 4). -/
def convTerm (d : Nat) (b : Buf) (kr : List Word) (m col row : Nat) (acc : Color) (i : Nat) : Color :=
  cadd (d + 6 * i + 3) acc (cscale (d + 6 * i) (sample b m col row i) (weightAt kr i))

/-- `ConvPixel(S, k, M, col, row)`: the terms in increasing index order from BLACK (R101). -/
def convPixel (d : Nat) (b : Buf) (k : List Word) (m col row : Nat) : Color :=
  (List.range (m * m)).foldl (convTerm d b (reversed k) m col row) Color.black

/-- Where the free values of destination pixel (col, row) begin: each pixel before it, in row-major order, has six for
every weight. The numbering says nothing about the order of computation, which is free (R45; log entry 4). -/
def pixelDraw (d : Nat) (b : Buf) (m col row : Nat) : Nat := d + 6 * (m * m) * pxIndex b.width col row

/-- Every destination pixel, row-major, each from the source buffer and the kernel alone (R45, R102). -/
def convPixels (d : Nat) (b : Buf) (k : List Word) (m : Nat) : List Color :=
  (List.range b.height).flatMap fun row =>
    (List.range b.width).map fun col => convPixel (pixelDraw d b m col row) b k m col row

/-- CONV_APPLY's computation: the kernel's length is checked first, then a buffer of the source's size is made and
filled (R98, R102). -/
def convBuffer (cap d : Nat) (b : Buf) (k : List Word) : Except ErrKind Buf :=
  match kernelSide k.length with
  | .error e => .error e
  | .ok m =>
    match pbCreate cap b.width b.height with
    | .error e => .error e
    | .ok blank => .ok { blank with px := convPixels d b k m }

/-- How many operations a convolution does: for each pixel and weight, three products and three sums (R111). Each has a
free value of its own for a NaN result. -/
def convDraws (b : Buf) (k : List Word) : Nat := 6 * k.length * (b.width * b.height)

/-- The free values up to `n` more have been drawn (log entry 4). -/
def State.drawn (s : State) (n : Nat) : State := { s with draws := s.draws + n }

/-- CONV_APPLY (R102). Every sample is taken from the source as it was when the command began. -/
def execConvApply (rd rs : SlotIx) (k : List Word) (s : State) : Result :=
  ifLegal (.convApply rd rs k) s <| withBuffer s rs (some rd) fun b =>
    match convBuffer s.pbCap s.draws b k with
    | .error e => s.store rd (.error e)
    | .ok d => (s.drawn (convDraws b k)).store rd (.ok d)

end Sys2Proof.Machine
end

