-- ==== Sys2Proof/Machine/PixelBuffer.lean ====
section
/-! DEFINITION. The PixelBuffer commands (spec/40_pixelbuffer.md). -/

namespace Sys2Proof.Machine

/-- PB_CREATE: an all-black buffer in slot rd (R73). -/
def execPbCreate (rd : SlotIx) (width height : Word) (s : State) : Result :=
  ifLegal (.pbCreate rd width height) s (s.store rd (pbCreate s.pbCap (s32 width) (s32 height)))

/-- PB_GET: the pixel at the clamped coordinates, as stored, in the order r, g, b (R74, R60). -/
def execPbGet (rs : SlotIx) (x y : Word) (s : State) : Result :=
  ifLegal (.pbGet rs x y) s <| withBuffer s rs none fun b =>
    let c := pbGet b (s32 x) (s32 y)
    s.complete [c.r, c.g, c.b] []

/-- The coordinates are in bounds of the buffer (R75). -/
def inBounds (b : Buf) (x y : Int) : Bool :=
  decide (0 ≤ x) && decide (x < b.width) && decide (0 ≤ y) && decide (y < b.height)

/-- `PxWrite` of R10 on a buffer: one element of `px` is replaced, width and height stay (R17). -/
def pxWrite (b : Buf) (x y : Nat) (c : Color) : Buf := { b with px := b.px.set (pxIndex b.width x y) c }

/-- PB_SET: one in-bounds pixel of slot rd takes the colour bit for bit; there is no clamping on a write. On an error
the slot stays as it was: PB_SET is not buffer-producing (R75, R118). -/
def execPbSet (rd : SlotIx) (x y r g b : Word) (s : State) : Result :=
  ifLegal (.pbSet rd x y r g b) s <| withBuffer s rd none fun old =>
    if inBounds old (s32 x) (s32 y) then
      (s.setSlot rd (.buf (pxWrite old (s32 x).toNat (s32 y).toNat ⟨r, g, b⟩))).complete [] []
    else s.raise .outOfBounds none

/-- PB_WIDTH: the buffer's width as one word (R76, R60). -/
def execPbWidth (rs : SlotIx) (s : State) : Result :=
  ifLegal (.pbWidth rs) s <| withBuffer s rs none fun b => s.complete [BitVec.ofNat 32 b.width] []

/-- PB_HEIGHT: the buffer's height as one word (R77, R60). -/
def execPbHeight (rs : SlotIx) (s : State) : Result :=
  ifLegal (.pbHeight rs) s <| withBuffer s rs none fun b => s.complete [BitVec.ofNat 32 b.height] []

end Sys2Proof.Machine
end

