-- ==== Sys2Proof/Machine/Dispatch.lean ====
section
/-! DEFINITION. The dispatch of the eight commands to their meanings (spec/30_encoding.md R55). -/

namespace Sys2Proof.Machine

/-- The effect of one command. -/
def exec (i : Instr) (s : State) : Host.Outcome State Fault Refusal :=
  match i with
  | .pbCreate rd width height => Sys2Proof.Machine.execPbCreate rd width height s
  | .pbGet rs x y => Sys2Proof.Machine.execPbGet rs x y s
  | .pbSet rd x y r g b => Sys2Proof.Machine.execPbSet rd x y r g b s
  | .pbWidth rs => Sys2Proof.Machine.execPbWidth rs s
  | .pbHeight rs => Sys2Proof.Machine.execPbHeight rs s
  | .bmpDecode rd => Sys2Proof.Machine.execBmpDecode rd s
  | .bmpEncode rs => Sys2Proof.Machine.execBmpEncode rs s
  | .convApply rd rs k => Sys2Proof.Machine.execConvApply rd rs k s

end Sys2Proof.Machine
end

