-- ==== Sys2Proof/Machine/Step.lean ====
section
/-! DEFINITION. One step: the next thing the host does, carried out whole (spec/00_scope.md R5; spec/20_memory.md R43). -/

namespace Sys2Proof.Machine

/-- A packet presented to the block: a legal one runs, an illegal one ends with IllegalCommand (R49, R56). -/
def runPacket (packet : List Word) (s : State) : Host.Outcome State Fault Refusal :=
  match decode s.nbuf packet with
  | .error _ => .next s.illegal
  | .ok i => exec i s

/-- One step of a run (R142): the next packet is executed to its response, or the block is reset (R131). With nothing
left to present the engine is idle and holds its state (R121, R126; log entry 7). -/
def step (s : State) : Host.Outcome State Fault Refusal :=
  match s.inbox with
  | [] => .next s
  | .reset :: rest => .next (s.resetBlock rest)
  | .command packet src snkOk :: rest => runPacket packet (s.present src snkOk rest)

/-- The host presents the packet whose bits are `w` next, with the operand streams that stand at the interface, so that
the very next step runs it (log entry 10). -/
def State.withFetchWord (s : State) (nbits w : Nat) : State :=
  { s with inbox := .command (tablePacket nbits w) s.src s.snkOk :: s.inbox }

end Sys2Proof.Machine
end

