-- ==== Sys2Proof/Machine/Pipeline.lean ====
section
/-! DEFINITION. The host's pipeline: the pseudo-instruction CONVOLVE and a host that stops at the first error
(spec/30_encoding.md R68; spec/70_reset_and_hazards.md R136). Stopping is the host's act; the engine itself would take
the later commands (spec/60_exceptions.md R122). -/

namespace Sys2Proof.Machine

/-- `CONVOLVE pb<a>, pb<b>, [kernel]` expands to decode, apply, encode (R68, R136). -/
def convolve (a b : SlotIx) (k : List Word) : List Instr := [.bmpDecode a, .convApply b a k, .bmpEncode b]

/-- The commands of a pseudo-instruction as the host presents them, each with the run's SRC and SNK_OK. -/
def present (src : Option (List Byte)) (snkOk : Bool) (is : List Instr) : List HostEvent :=
  is.map fun i => .command (encode i) src snkOk

/-- A host that presents events one at a time and issues none after a response whose status is not 0 (R68). -/
def hostRun : List HostEvent → State → Host.Outcome State Fault Refusal
  | [], s => .next s
  | e :: es, s =>
    match step { s with inbox := [e] } with
    | .next t => if t.status = codeOk then hostRun es t else .next t
    | o => o

end Sys2Proof.Machine
end

