-- ==== Sys2Proof/Safety.lean ====
section
/-! DEFINITION. The vocabulary of the claims: the invariant of the engine, "equal up to NaN", the exact value of a
finite binary32 pattern, and the spec's closed forms, written from its rules without the operations the meanings use. -/

namespace Sys2Proof.Machine

/-- The invariant of the engine: the number of slots and the capacity are ones an implementation may have (R6), every
stored buffer is well-formed (R16), and STATUS holds a completion code (R21, R113). -/
def State.inv (s : State) : Bool :=
  decide (Config.nbufMin ≤ s.nbuf) && decide (s.nbuf ≤ Config.nbufMax) && decide (Config.pbCapMin ≤ s.pbCap)
    && Memory.wf s.pbCap s.pb && decide (s.status.toNat ≤ 8)

/-- The kernel lengths the engine accepts (R6, R98). -/
def legalLengths : List Nat := [1, 9, 25, 49, 81]

/-! ## Comparing results -/

/-- Equal patterns, or two NaNs: NaNs compared as one class (R104, U3). -/
def sameUpToNan (a b : Word) : Bool := decide (a = b) || (isNan a && isNan b)

/-- A quiet NaN: the first fraction bit is set (R12; log entry 5). -/
def isQuietNan (w : Word) : Bool := isNan w && w.getLsbD 22

/-- Colours equal up to NaN, channel by channel. -/
def Color.sameUpToNan (a b : Color) : Bool :=
  Machine.sameUpToNan a.r b.r && Machine.sameUpToNan a.g b.g && Machine.sameUpToNan a.b b.b

/-- The same thing of each channel of a colour. -/
def Color.map (f : Word → Word) (c : Color) : Color := ⟨f c.r, f c.g, f c.b⟩

/-- A property of each channel of a colour. -/
def Color.all (p : Word → Bool) (c : Color) : Bool := p c.r && p c.g && p c.b

/-- Neither a NaN nor an infinity. -/
def isFinite (w : Word) : Bool := decide (fExp w ≠ 255)

/-- An infinity. -/
def isInf (w : Word) : Bool := decide (w = 0x7F800000) || decide (w = 0xFF800000)

/-- +0.0 or -0.0. -/
def isZero (w : Word) : Bool := decide (w = 0) || decide (w = 0x80000000)

/-- The infinity of a sign, and the zero of a sign, written out. -/
def infOf (neg : Bool) : Word := if neg then 0xFF800000 else 0x7F800000
/-- See `infOf`. -/
def zeroOf (neg : Bool) : Word := if neg then 0x80000000 else 0

/-- The operand pairs whose product is a NaN: a NaN, or an infinity with a zero (R12, R105 (a)). -/
def nanProduct (a b : Word) : Bool := isNan a || isNan b || (isInf a && isZero b) || (isZero a && isInf b)

/-- The exact value of a finite pattern; 0 for the others, which no claim uses. -/
def fValue (w : Word) : ℚ :=
  match unpack w with
  | .nan => 0
  | .inf _ => 0
  | .fin neg m e => (signed neg m : ℚ) * (2 : ℚ) ^ e

/-- `w` is a binary32 value nearest to `q`: no finite value is nearer, and where another is as near, `w` is the one
whose last fraction bit is 0 (R12: round to nearest, ties to even). -/
def nearest (q : ℚ) (w : Word) : Prop :=
  ∀ v : Word, isFinite v = true →
    |fValue w - q| < |fValue v - q| ∨ fValue v = fValue w ∨ (|fValue w - q| = |fValue v - q| ∧ w.toNat % 2 = 0)

/-! ## The spec's closed forms -/

/-- The packets R56 calls illegal on a block with `nbuf` slots: its seven tests over the header word as a number. -/
def illegalPacket (nbuf : Nat) (pk : List Word) : Prop :=
  pk = [] ∨ ∃ h ops, pk = h :: ops ∧
    (h.toNat / 2 ^ 16 ≠ 0
      ∨ h.toNat % 2 ^ 8 ∉ [0x01, 0x02, 0x03, 0x04, 0x05, 0x10, 0x11, 0x20]
      ∨ (h.toNat % 2 ^ 8 ∈ [0x01, 0x03, 0x10] ∧ h.toNat / 2 ^ 12 % 16 ≠ 0)
      ∨ (h.toNat % 2 ^ 8 ∈ [0x02, 0x04, 0x05, 0x11] ∧ h.toNat / 2 ^ 8 % 16 ≠ 0)
      ∨ (h.toNat % 2 ^ 8 ∈ [0x04, 0x05, 0x10, 0x11] ∧ pk.length ≠ 1)
      ∨ (h.toNat % 2 ^ 8 ∈ [0x01, 0x02] ∧ pk.length ≠ 3)
      ∨ (h.toNat % 2 ^ 8 = 0x03 ∧ pk.length ≠ 6)
      ∨ (h.toNat % 2 ^ 8 ∈ [0x01, 0x03, 0x10, 0x20] ∧ nbuf ≤ h.toNat / 2 ^ 8 % 16)
      ∨ (h.toNat % 2 ^ 8 ∈ [0x02, 0x04, 0x05, 0x11, 0x20] ∧ nbuf ≤ h.toNat / 2 ^ 12 % 16)
      ∨ (h.toNat % 2 ^ 8 = 0x20 ∧ h.toNat / 2 ^ 8 % 16 = h.toNat / 2 ^ 12 % 16))

/-- The pixel at integer coordinates clamped to the edge, written with minimum and maximum (R72). -/
def clampedPixel (b : Buf) (x y : Int) : Color :=
  b.px.getD ((max 0 (min y (b.height - 1))).toNat * b.width + (max 0 (min x (b.width - 1))).toNat) Color.black

/-- The 4-byte little-endian signed number at an offset of a stream (R36, R38). -/
def streamInt (b : List Byte) (o : Nat) : Int :=
  let v := (b.getD o 0).toNat + 256 * (b.getD (o + 1) 0).toNat + 65536 * (b.getD (o + 2) 0).toNat
    + 16777216 * (b.getD (o + 3) 0).toNat
  if v < 2 ^ 31 then v else v - 2 ^ 32

/-- The outcome of BMP_DECODE as a function of SRC alone: the image, or the completion code of R85 and R113 (1
FileNotFound, 2 InvalidFormat, 3 InvalidDimension, 8 CapacityExceeded) (R87, R89, R114). -/
def decodeOutcome (cap : Nat) : Option (List Byte) → Except (BitVec 8) Buf
  | none => .error 1
  | some b =>
    let w := streamInt b 18
    let h := streamInt b 22
    if b.length < 14 ∨ b.getD 0 0 ≠ 0x42 ∨ b.getD 1 0 ≠ 0x4D ∨ b.length < 54 then .error 2
    else if w ≤ 0 ∨ h ≤ 0 then .error 3
    else if (cap : Int) < w * h then .error 8
    else if b.length < filesize w.toNat h.toNat then .error 2
    else .ok ⟨w.toNat, h.toNat, (List.range (w.toNat * h.toNat)).map fun k =>
      let o := 54 + k / w.toNat * stride w.toNat + 3 * (k % w.toNat)
      ⟨dec (b.getD (o + 2) 0), dec (b.getD (o + 1) 0), dec (b.getD o 0)⟩⟩

/-- One destination pixel of a convolution as R101 and R106 give it: the terms
`K[M-1-a][M-1-b] * S(col - h + b, row - h + a)` added in row-major order of (a, b) from +0.0. -/
def convolvedPixel (d : Nat) (s : Buf) (k : List Word) (m col row : Nat) : Color :=
  (List.range m).foldl (fun acc a =>
    (List.range m).foldl (fun acc b =>
      cadd (d + 6 * (a * m + b) + 3) acc
        (cscale (d + 6 * (a * m + b))
          (clampedPixel s ((col : Int) - (m / 2 : Nat) + b) ((row : Int) - (m / 2 : Nat) + a))
          (k.getD ((m - 1 - a) * m + (m - 1 - b)) 0)))
      acc)
    Color.black

/-- The 54 header bytes of an encoded image, field by field (R61, R62). -/
def headerBytes (w h : Nat) : List Byte :=
  let le (n v : Nat) : List Byte := (List.range n).map fun i => BitVec.ofNat 8 (v / 256 ^ i)
  [0x42, 0x4D] ++ le 4 (filesize w h) ++ le 4 0 ++ le 4 54
    ++ le 4 40 ++ le 4 w ++ le 4 h ++ le 2 1 ++ le 2 24 ++ le 4 0 ++ le 20 0

end Sys2Proof.Machine
end

