-- ==== Sys2Proof/Certificates/Slice0/Obligations.lean ====
section
/-! DEFINITION. The statements about the engine. Each docstring names the rule it formalises. -/

open Sys2Proof Sys2Proof.Machine

/-! ## Packets -/

/-- R49 to R58: encoding a legal command and decoding the packet gives the command back, on a block of any number of
slots and for every operand. -/
def Obligations.EncodeThenDecode : Prop :=
  ∀ (nbuf : Nat) (i : Instr), i.wellFormed nbuf = true → decode nbuf (encode i) = .ok i

/-- R49, R56: a packet that decodes is the packet of exactly the command it decodes to, and that command is legal. -/
def Obligations.DecodeThenEncode : Prop :=
  ∀ (nbuf : Nat) (pk : List Word) (i : Instr), decode nbuf pk = .ok i →
    encode i = pk ∧ i.wellFormed nbuf = true

/-- R56: a packet is rejected exactly when one of the seven tests holds of it. -/
def Obligations.RejectedExactlyWhenIllegal : Prop :=
  ∀ (nbuf : Nat) (pk : List Word), (∃ e, decode nbuf pk = .error e) ↔ illegalPacket nbuf pk

/-- R55, R67: the packets of the spec's own examples decode to the commands they stand for. -/
def Obligations.ExamplePacketsDecode : Prop :=
  decode 2 [0x00000001, 3, 3] = .ok (.pbCreate 0 3 3) ∧
    decode 2 [0x00001002, 0xFFFFFFF6, 0x0000000D] = .ok (.pbGet 1 0xFFFFFFF6 13) ∧
    decode 2 [0x00000010] = .ok (.bmpDecode 0) ∧
    decode 2 [0x00000120, 0x3F800000] = .ok (.convApply 1 0 [0x3F800000]) ∧
    decode 2 [0x00000020, 0x3F800000] = .error .sameSlot

/-! ## Steps, reset, the invariant -/

/-- R30: after reset every slot is Empty and STATUS is 0. -/
def Obligations.ResetState : Prop :=
  (∀ v ∈ State.reset.pb, v = .empty) ∧ State.reset.status = 0

/-- R131: a reset between commands leaves every slot Empty and STATUS 0. That it keeps the machine's parameters and the
host's side and answers nothing is the model's reading (log entry 8). -/
def Obligations.StepResetsBlock : Prop :=
  ∀ (s : State) (rest : List HostEvent), s.inbox = .reset :: rest →
    step s = .next { s with pb := List.replicate s.pb.length .empty, status := 0, inbox := rest }

/-- R5, R27, R28: when the packet presented decodes to a command, the step is that command run on the state in which the
command's operand streams stand at the interface and the rest of the run is still to come. -/
def Obligations.StepRunsDecodedCommand : Prop :=
  ∀ (s : State) (pk : List Word) (src : Option (List Byte)) (ok : Bool) (rest : List HostEvent) (i : Instr),
    s.inbox = .command pk src ok :: rest → decode s.pb.length pk = .ok i →
      step s = exec i { s with src := src, snkOk := ok, inbox := rest }

/-- R56, R118: an illegal packet ends with code 6 and changes nothing but STATUS. -/
def Obligations.StepEndsIllegalPacket : Prop :=
  ∀ (s : State) (pk : List Word) (src : Option (List Byte)) (ok : Bool) (rest : List HostEvent),
    s.inbox = .command pk src ok :: rest → illegalPacket s.pb.length pk →
      step s = .next { s with src := src, snkOk := ok, inbox := rest, status := 6,
                              outbox := s.outbox ++ [⟨[6], []⟩] }

/-- R121, R126: with nothing presented the engine holds its state. That a run with nothing left to present steps at all
is the model's choice (log entry 7). -/
def Obligations.IdleEngineHoldsState : Prop :=
  ∀ s : State, s.inbox = [] → step s = .next s

/-- R141, R21, R60: every packet, in every state, is answered by exactly one response; its first word is the completion
code, which STATUS then holds and which is at most 8; a response of an error has no further word and no SNK byte. -/
def Obligations.EveryPacketIsAnswered : Prop :=
  ∀ (s : State) (pk : List Word) (src : Option (List Byte)) (ok : Bool) (rest : List HostEvent),
    s.inbox = .command pk src ok :: rest →
      ∃ (t : State) (words : List Word) (snk : List Byte), step s = .next t ∧ t.inbox = rest ∧
        t.outbox = s.outbox ++ [⟨BitVec.ofNat 32 t.status.toNat :: words, snk⟩] ∧ t.status.toNat ≤ 8 ∧
        (t.status ≠ 0 → words = [] ∧ snk = [])

/-- R6, R16, R21: the machine right after reset satisfies the invariant. -/
def Obligations.ResetSatisfiesInvariant : Prop := State.reset.inv = true

/-- R6, R16, R17, R21: every step keeps the invariant: legal parameters, every stored buffer W*H pixels long with both
sides at least 1 and within the capacity, STATUS a completion code. -/
def Obligations.StepKeepsInvariant : Prop :=
  ∀ s t : State, s.inv = true → step s = .next t → t.inv = true

/-- R6, R22: no step changes the number of slots or the capacity. -/
def Obligations.StepKeepsParameters : Prop :=
  ∀ s t : State, step s = .next t → t.pb.length = s.pb.length ∧ t.pbCap = s.pbCap

/-- R21: STATUS is never read: what a command does is the same whatever it held. -/
def Obligations.StatusIsNeverRead : Prop :=
  ∀ (i : Instr) (s : State) (c : BitVec 8), exec i { s with status := c } = exec i s

/-- R27, R28: only BMP_DECODE reads SRC and only BMP_ENCODE reads SNK_OK: what every other command does is the same
whatever the host provides, and it leaves them as they stand. -/
def Obligations.StreamsAreReadByTheirCommandsOnly : Prop :=
  ∀ (i : Instr) (s t : State) (src : Option (List Byte)) (ok : Bool), exec i s = .next t →
    ((∀ rd, i ≠ .bmpDecode rd) → exec i { s with src := src } = .next { t with src := src }) ∧
    ((∀ rs, i ≠ .bmpEncode rs) → exec i { s with snkOk := ok } = .next { t with snkOk := ok })

/-! ## Frames and error completion -/

/-- R15, R19, R118: a command changes no slot but its destination, and never the parameters or the host's side other
than by its one response. -/
def Obligations.OnlyDestinationSlotChanges : Prop :=
  ∀ (i : Instr) (s t : State), exec i s = .next t →
    t.pb.length = s.pb.length ∧ t.pbCap = s.pbCap ∧ t.src = s.src ∧ t.snkOk = s.snkOk ∧ t.inbox = s.inbox ∧
      ∀ j : Nat, (∀ rd, i.rd? = some rd → rd.toNat ≠ j) → t.pb[j]? = s.pb[j]?

/-- R19, R43: PB_GET, PB_WIDTH, PB_HEIGHT and BMP_ENCODE change nothing but STATUS and the responses. -/
def Obligations.ReadersChangeNoSlot : Prop :=
  ∀ (s t : State) (i : Instr),
    (∃ rs x y, i = .pbGet rs x y) ∨ (∃ rs, i = .pbWidth rs ∨ i = .pbHeight rs ∨ i = .bmpEncode rs) →
      exec i s = .next t → t = { s with status := t.status, outbox := t.outbox }

/-- R118, for a command: STATUS and the one response word hold the code, no SNK byte is written, and the destination of
a legal buffer-producing command becomes Empty; every other field is as it was. -/
def Obligations.CommandErrorFrame : Prop :=
  ∀ (i : Instr) (s t : State), exec i s = .next t → t.status ≠ 0 →
    t = { s with
      status := t.status
      outbox := s.outbox ++ [⟨[BitVec.ofNat 32 t.status.toNat], []⟩]
      pb := if i.wellFormed s.pb.length = true ∧ i.producesBuffer = true then
          (match i.rd? with
           | some rd => s.pb.set rd.toNat .empty
           | none => s.pb)
        else s.pb }

/-- R118, for every packet: an error does exactly its five items. An illegal packet is the case of IllegalCommand. -/
def Obligations.ErrorCompletionExactly : Prop :=
  ∀ (s t : State) (pk : List Word) (src : Option (List Byte)) (ok : Bool) (rest : List HostEvent),
    s.inbox = .command pk src ok :: rest → step s = .next t → t.status ≠ 0 →
      t = { s with
        src := src
        snkOk := ok
        inbox := rest
        status := t.status
        outbox := s.outbox ++ [⟨[BitVec.ofNat 32 t.status.toNat], []⟩]
        pb := match decode s.pb.length pk with
          | .ok (.pbCreate rd _ _) => s.pb.set rd.toNat .empty
          | .ok (.bmpDecode rd) => s.pb.set rd.toNat .empty
          | .ok (.convApply rd _ _) => s.pb.set rd.toNat .empty
          | _ => s.pb }

/-- R114: a command ends with no other error than the ones listed for it, on a well-formed buffer file. -/
def Obligations.ErrorsOfEachCommand : Prop :=
  ∀ (i : Instr) (s t : State), Memory.wf s.pbCap s.pb = true → exec i s = .next t →
    t.status.toNat ∈ 0 :: 6 :: (match i with
      | .pbCreate _ _ _ => [3, 8]
      | .pbGet _ _ _ => [7]
      | .pbSet _ _ _ _ _ _ => [7, 4]
      | .pbWidth _ => [7]
      | .pbHeight _ => [7]
      | .bmpDecode _ => [1, 2, 3, 8]
      | .bmpEncode _ => [7, 1]
      | .convApply _ _ _ => [7, 5])

/-- R58, R102, R135: a command whose slot fields name no slot, and a CONV_APPLY whose two slots are one, end with
IllegalCommand and change nothing but STATUS. Running such a command without its packet is the model's choice (log
entry 9). -/
def Obligations.IllegalSlotsEndCommand : Prop :=
  ∀ (i : Instr) (s : State), i.wellFormed s.pb.length = false →
    exec i s = .next { s with status := 6, outbox := s.outbox ++ [⟨[6], []⟩] }

/-- R20, R115: a command that needs a buffer from an Empty slot ends with EmptyBuffer; CONV_APPLY then also empties its
destination (R118). -/
def Obligations.EmptySlotEndsCommand : Prop :=
  ∀ (s : State) (e : SlotIx), s.pb[e.toNat]? = some .empty →
    let t := { s with status := 7, outbox := s.outbox ++ [⟨[7], []⟩] }
    (∀ x y, exec (.pbGet e x y) s = .next t) ∧
    (∀ x y r g b, exec (.pbSet e x y r g b) s = .next t) ∧
    exec (.pbWidth e) s = .next t ∧ exec (.pbHeight e) s = .next t ∧ exec (.bmpEncode e) s = .next t ∧
    ∀ (rd : SlotIx) (k : List Word), rd.toNat < s.pb.length → rd ≠ e →
      exec (.convApply rd e k) s = .next { t with pb := s.pb.set rd.toNat .empty }

/-! ## The PixelBuffer commands -/

/-- R73, R79: PB_CREATE's packet, and its effect on an existing slot, for every width and height. -/
def Obligations.PbCreateResult : Prop :=
  ∀ (s : State) (rd : SlotIx) (w h : Word), rd.toNat < s.pb.length →
    encode (.pbCreate rd w h) = [BitVec.ofNat 32 (0x01 + rd.toNat * 256), w, h] ∧
    exec (.pbCreate rd w h) s = .next
      (if w.toInt ≤ 0 ∨ h.toInt ≤ 0 then
        { s with pb := s.pb.set rd.toNat .empty, status := 3, outbox := s.outbox ++ [⟨[3], []⟩] }
      else if (s.pbCap : Int) < w.toInt * h.toInt then
        { s with pb := s.pb.set rd.toNat .empty, status := 8, outbox := s.outbox ++ [⟨[8], []⟩] }
      else
        { s with
          pb := s.pb.set rd.toNat (.buf ⟨w.toInt.toNat, h.toInt.toNat,
            List.replicate (w.toInt.toNat * h.toInt.toNat) ⟨0, 0, 0⟩⟩)
          status := 0, outbox := s.outbox ++ [⟨[0], []⟩] })

/-- R74, R72: PB_GET's packet, and its effect: EmptyBuffer on an Empty slot; else the stored channels of the pixel at
the clamped coordinates, r, g, b, and nothing else changed. -/
def Obligations.PbGetResult : Prop :=
  ∀ (s : State) (rs : SlotIx) (x y : Word) (v : Slot), s.pb[rs.toNat]? = some v → v.wf s.pbCap = true →
    encode (.pbGet rs x y) = [BitVec.ofNat 32 (0x02 + rs.toNat * 4096), x, y] ∧
    (v = .empty → exec (.pbGet rs x y) s = .next { s with status := 7, outbox := s.outbox ++ [⟨[7], []⟩] }) ∧
    ∀ b, v = .buf b → ∃ c,
      b.px[(max 0 (min y.toInt (b.height - 1))).toNat * b.width + (max 0 (min x.toInt (b.width - 1))).toNat]?
        = some c ∧
      exec (.pbGet rs x y) s = .next { s with status := 0, outbox := s.outbox ++ [⟨[0, c.r, c.g, c.b], []⟩] }

/-- R75: PB_SET's packet, and its effect: EmptyBuffer on an Empty slot; else the one pixel written bit for bit when it is
in bounds, and OutOfBounds with the buffer unchanged when it is not. -/
def Obligations.PbSetResult : Prop :=
  ∀ (s : State) (rd : SlotIx) (x y r g b : Word) (v : Slot), s.pb[rd.toNat]? = some v →
    encode (.pbSet rd x y r g b) = [BitVec.ofNat 32 (0x03 + rd.toNat * 256), x, y, r, g, b] ∧
    exec (.pbSet rd x y r g b) s = .next
      (match v with
      | .empty => { s with status := 7, outbox := s.outbox ++ [⟨[7], []⟩] }
      | .buf o =>
        if 0 ≤ x.toInt ∧ x.toInt < o.width ∧ 0 ≤ y.toInt ∧ y.toInt < o.height then
          { s with
            pb := s.pb.set rd.toNat
              (.buf { o with px := o.px.set (y.toInt.toNat * o.width + x.toInt.toNat) ⟨r, g, b⟩ })
            status := 0, outbox := s.outbox ++ [⟨[0], []⟩] }
        else { s with status := 4, outbox := s.outbox ++ [⟨[4], []⟩] })

/-- R76: PB_WIDTH's packet, and its effect: EmptyBuffer on an Empty slot; else the buffer's width, exactly, and
nothing else changed. -/
def Obligations.PbWidthResult : Prop :=
  ∀ (s : State) (rs : SlotIx) (v : Slot), s.pb[rs.toNat]? = some v → v.wf s.pbCap = true →
    encode (.pbWidth rs) = [BitVec.ofNat 32 (0x04 + rs.toNat * 4096)] ∧
    (v = .empty → exec (.pbWidth rs) s = .next { s with status := 7, outbox := s.outbox ++ [⟨[7], []⟩] }) ∧
    ∀ b, v = .buf b → ∃ w : Word, w.toNat = b.width ∧ 1 ≤ w.toInt ∧
      exec (.pbWidth rs) s = .next { s with status := 0, outbox := s.outbox ++ [⟨[0, w], []⟩] }

/-- R77: PB_HEIGHT's packet, and its effect: EmptyBuffer on an Empty slot; else the buffer's height, exactly, and
nothing else changed. -/
def Obligations.PbHeightResult : Prop :=
  ∀ (s : State) (rs : SlotIx) (v : Slot), s.pb[rs.toNat]? = some v → v.wf s.pbCap = true →
    encode (.pbHeight rs) = [BitVec.ofNat 32 (0x05 + rs.toNat * 4096)] ∧
    (v = .empty → exec (.pbHeight rs) s = .next { s with status := 7, outbox := s.outbox ++ [⟨[7], []⟩] }) ∧
    ∀ b, v = .buf b → ∃ h : Word, h.toNat = b.height ∧ 1 ≤ h.toInt ∧
      exec (.pbHeight rs) s = .next { s with status := 0, outbox := s.outbox ++ [⟨[0, h], []⟩] }

/-- R78: the edge-clamp laws of PbGet, for every integer coordinate; a corner is clamped on both axes at once. -/
def Obligations.EdgeClampLaws : Prop :=
  ∀ (cap : Nat) (b : Buf) (x y : Int), b.wf cap = true →
    (x < 0 → pbGet b x y = pbGet b 0 y) ∧ ((b.width : Int) ≤ x → pbGet b x y = pbGet b (b.width - 1) y) ∧
    (y < 0 → pbGet b x y = pbGet b x 0) ∧ ((b.height : Int) ≤ y → pbGet b x y = pbGet b x (b.height - 1)) ∧
    pbGet b (-3) (b.height + 7) = pbGet b 0 (b.height - 1) ∧
    (b.width = 1 → b.height = 1 → b.px = [pbGet b x y])

/-- R80: after a successful PB_SET, PB_GET of that pixel answers the colour set, and PB_GET of any other in-bounds pixel
answers what it answered before. -/
def Obligations.GetAfterSet : Prop :=
  ∀ (s t : State) (rd : SlotIx) (x y r g b x' y' : Word) (o : Buf), s.pb[rd.toNat]? = some (.buf o) →
    o.wf s.pbCap = true → exec (.pbSet rd x y r g b) s = .next t → t.status = 0 →
      0 ≤ x'.toInt → x'.toInt < o.width → 0 ≤ y'.toInt → y'.toInt < o.height →
        ∃ u v words, exec (.pbGet rd x' y') t = .next u ∧ exec (.pbGet rd x' y') s = .next v ∧
          u.outbox = t.outbox ++ [⟨words, []⟩] ∧
          (if x' = x ∧ y' = y then words = [0, r, g, b] else v.outbox = s.outbox ++ [⟨words, []⟩])

/-- R80: after a successful PB_CREATE the accessors answer the size and every PB_GET answers black. -/
def Obligations.ReadAfterCreate : Prop :=
  ∀ (s t : State) (rd : SlotIx) (w h x y : Word), exec (.pbCreate rd w h) s = .next t → t.status = 0 →
    exec (.pbWidth rd) t = .next { t with status := 0, outbox := t.outbox ++ [⟨[0, w], []⟩] } ∧
    exec (.pbHeight rd) t = .next { t with status := 0, outbox := t.outbox ++ [⟨[0, h], []⟩] } ∧
    exec (.pbGet rd x y) t = .next { t with status := 0, outbox := t.outbox ++ [⟨[0, 0, 0, 0], []⟩] }

/-- R17, R80: no command but a buffer-producing one into the slot changes a stored buffer's width or height, or makes
the slot Empty. -/
def Obligations.SizeStableBetweenProducers : Prop :=
  ∀ (i : Instr) (s t : State) (j : SlotIx) (b : Buf), s.pb[j.toNat]? = some (.buf b) →
    ¬(i.producesBuffer = true ∧ i.rd? = some j) → exec i s = .next t →
      ∃ b', t.pb[j.toNat]? = some (.buf b') ∧ b'.width = b.width ∧ b'.height = b.height

/-! ## The BMP codec -/

/-- R85, R86, R87: BMP_DECODE's packet, and its effect on an existing slot, as the closed form of SRC says: the code
of the first error that applies (1, 2, 3 or 8), with the slot emptied, or the decoded image in the slot. -/
def Obligations.BmpDecodeResult : Prop :=
  ∀ (s : State) (rd : SlotIx), rd.toNat < s.pb.length →
    encode (.bmpDecode rd) = [BitVec.ofNat 32 (0x10 + rd.toNat * 256)] ∧
    exec (.bmpDecode rd) s = .next
      (match decodeOutcome s.pbCap s.src with
      | .ok b => { s with pb := s.pb.set rd.toNat (.buf b), status := 0, outbox := s.outbox ++ [⟨[0], []⟩] }
      | .error c => { s with pb := s.pb.set rd.toNat .empty, status := c,
                             outbox := s.outbox ++ [⟨[BitVec.ofNat 32 c.toNat], []⟩] })

/-- R88: what decode ignores. Two streams of one length, or both as long as the image the first announces, that agree on
the signature, on the width and height fields and on the sample bytes of the rows decode alike: every other header
byte, the padding and everything past the image are ignored. -/
def Obligations.DecodeIgnoresOtherBytes : Prop :=
  ∀ (cap : Nat) (b b' : List Byte) (w h : Nat), w = (streamInt b 18).toNat → h = (streamInt b 22).toNat →
    b'.length = b.length ∨ (filesize w h ≤ b.length ∧ filesize w h ≤ b'.length) →
    (∀ o, o < 2 ∨ (18 ≤ o ∧ o < 26) ∨ (54 ≤ o ∧ o < filesize w h ∧ (o - 54) % stride w < 3 * w) → b'[o]? = b[o]?) →
      decodeBmp cap (some b') = decodeBmp cap (some b)

/-- R90: BMP_ENCODE's packet, and its effect: EmptyBuffer on an Empty slot, whether or not the sink is writable; else
all the image's bytes in SNK when the sink is writable, and FileNotFound with none when it is not. No slot changes. -/
def Obligations.BmpEncodeResult : Prop :=
  ∀ (s : State) (rs : SlotIx) (v : Slot), s.pb[rs.toNat]? = some v →
    encode (.bmpEncode rs) = [BitVec.ofNat 32 (0x11 + rs.toNat * 4096)] ∧
    exec (.bmpEncode rs) s = .next
      (match v with
      | .empty => { s with status := 7, outbox := s.outbox ++ [⟨[7], []⟩] }
      | .buf b =>
        if s.snkOk = true then { s with status := 0, outbox := s.outbox ++ [⟨[0], encodeBmp b⟩] }
        else { s with status := 1, outbox := s.outbox ++ [⟨[1], []⟩] })

/-- R91, R92, R93: the bytes of an encoded image: filesize(W, H) of them; the 54 header bytes; each sample at its place,
blue, green, red, buffer row 0 first; zero padding. -/
def Obligations.EncodedBytes : Prop :=
  ∀ (cap : Nat) (b : Buf), b.wf cap = true →
    (encodeBmp b).length = 54 + b.height * stride b.width ∧
    (encodeBmp b).take 54 = headerBytes b.width b.height ∧
    (∀ x y c, x < b.width → y < b.height → b.px[y * b.width + x]? = some c →
      (encodeBmp b)[54 + y * stride b.width + 3 * x]? = some (quant c.b) ∧
      (encodeBmp b)[54 + y * stride b.width + 3 * x + 1]? = some (quant c.g) ∧
      (encodeBmp b)[54 + y * stride b.width + 3 * x + 2]? = some (quant c.r)) ∧
    (∀ y j, y < b.height → j < pad b.width →
      (encodeBmp b)[54 + y * stride b.width + 3 * b.width + j]? = some 0)

/-- R81, R82: padding, stride and file size. -/
def Obligations.PaddingLaws : Prop :=
  ∀ w h : Nat, pad w = (4 - 3 * w % 4) % 4 ∧ pad w ≤ 3 ∧ pad w = w % 4 ∧ stride w = 3 * w + pad w ∧
    4 ∣ stride w ∧ filesize w h = 54 + h * stride w

/-- R83: a sample byte's channel is the binary32 value nearest to b/255; the values R83 lists; strictly increasing; in
[0.0, 1.0]. -/
def Obligations.DecResult : Prop :=
  (∀ b : Byte, isFinite (dec b) = true ∧ nearest ((b.toNat : ℚ) / 255) (dec b) ∧
    0 ≤ fValue (dec b) ∧ fValue (dec b) ≤ 1) ∧
  (∀ a b : Byte, a.toNat < b.toNat → fValue (dec a) < fValue (dec b)) ∧
  dec 0 = 0x00000000 ∧ dec 255 = 0x3F800000 ∧ dec 1 = 0x3B808081 ∧ dec 128 = 0x3F008081

/-- R94: a sample byte survives decoding and encoding exactly. -/
def Obligations.QuantOfDec : Prop := ∀ b : Byte, quant (dec b) = b

/-- R84: the quantiser: above 1.0 it gives 255; below 0 and for NaN it gives 0; in [0, 1] the product by 255.0, rounded
once, loses its fraction. -/
def Obligations.QuantResult : Prop :=
  ∀ c : Word, (fgt c fOne = true → quant c = 255) ∧ (fge c 0 = false → quant c = 0) ∧
    (fge c 0 = true → fgt c fOne = false → ((quant c).toNat : ℤ) = ⌊fValue (fmul 0 c f255)⌋)

/-- R94: a channel in [0, 1] comes back from encode and decode within 1/255 + 2^-23. -/
def Obligations.QuantisationError : Prop :=
  ∀ c : Word, fge c 0 = true → fge fOne c = true →
    |fValue (dec (quant c)) - fValue c| < 1 / 255 + 1 / 2 ^ 23

/-- R96: decoding the SNK bytes of a successful BMP_ENCODE gives a buffer of the same size whose every channel is
dec(quant(c)). -/
def Obligations.DecodeOfEncode : Prop :=
  ∀ (s : State) (rs rd : SlotIx) (b : Buf), s.pb[rs.toNat]? = some (.buf b) → b.wf s.pbCap = true →
    rd.toNat < s.pb.length → s.snkOk = true →
      ∃ t bytes, exec (.bmpEncode rs) s = .next t ∧ t.outbox = s.outbox ++ [⟨[0], bytes⟩] ∧
        exec (.bmpDecode rd) { t with src := some bytes } = .next
          { t with
            src := some bytes
            pb := s.pb.set rd.toNat (.buf ⟨b.width, b.height, b.px.map (Color.map fun c => dec (quant c))⟩)
            status := 0
            outbox := t.outbox ++ [⟨[0], []⟩] }

/-- R94: decode after encode after decode is the identity on buffers, so encoding a decoded image and decoding it again
gives the same image. -/
def Obligations.DecodeEncodeDecode : Prop :=
  ∀ (cap : Nat) (src : Option (List Byte)) (b : Buf), decodeBmp cap src = .ok b →
    decodeBmp cap (some (encodeBmp b)) = .ok b

/-! ## The convolution -/

/-- R98: KernelSide accepts exactly the lengths 1, 9, 25, 49, 81, with sides 1, 3, 5, 7, 9, and answers InvalidKernel for
every other. -/
def Obligations.KernelSideExactly : Prop :=
  ∀ len : Nat, kernelSide len =
    if len = 1 then .ok 1 else if len = 9 then .ok 3 else if len = 25 then .ok 5 else if len = 49 then .ok 7
    else if len = 81 then .ok 9 else .error .invalidKernel

/-- R99, R110: the reversed kernel is k[L-1-i], which in a matrix of side m turns it by 180 degrees; it is the kernel
itself exactly when that is symmetric under such a turn. -/
def Obligations.KernelReversal : Prop :=
  ∀ k : List Word, (reversed k).length = k.length ∧
    (∀ i, i < k.length → (reversed k)[i]? = k[k.length - 1 - i]?) ∧
    (∀ m a b, k.length = m * m → a < m → b < m →
      (reversed k)[a * m + b]? = k[(m - 1 - a) * m + (m - 1 - b)]?) ∧
    (reversed k = k ↔ ∀ i, i < k.length → k[i]? = k[k.length - 1 - i]?)

/-- R102, R106: CONV_APPLY's packet, and its effect on two existing slots: IllegalCommand in place; EmptyBuffer from an
Empty slot, InvalidKernel for a length outside the five, both emptying the destination; else a buffer of the source's
size in the destination, every pixel, up to which NaN a NaN is, the ordered sum of clamped samples times the weights
turned by 180 degrees. The model's counter of free values (log entry 4) is left open. -/
def Obligations.ConvApplyResult : Prop :=
  ∀ (s : State) (rd rs : SlotIx) (k : List Word) (v : Slot), s.pb[rs.toNat]? = some v → v.wf s.pbCap = true →
    rd.toNat < s.pb.length →
    encode (.convApply rd rs k) = BitVec.ofNat 32 (0x20 + rd.toNat * 256 + rs.toNat * 4096) :: k ∧
    (rd = rs → exec (.convApply rd rs k) s = .next { s with status := 6, outbox := s.outbox ++ [⟨[6], []⟩] }) ∧
    (rd ≠ rs → v = .empty → exec (.convApply rd rs k) s = .next
      { s with pb := s.pb.set rd.toNat .empty, status := 7, outbox := s.outbox ++ [⟨[7], []⟩] }) ∧
    (∀ b, rd ≠ rs → v = .buf b → k.length ∉ legalLengths → exec (.convApply rd rs k) s = .next
      { s with pb := s.pb.set rd.toNat .empty, status := 5, outbox := s.outbox ++ [⟨[5], []⟩] }) ∧
    (∀ b m, rd ≠ rs → v = .buf b → k.length ∈ legalLengths → k.length = m * m →
      ∃ px n, px.length = b.width * b.height ∧
        exec (.convApply rd rs k) s = .next
          { s with
            pb := s.pb.set rd.toNat (.buf ⟨b.width, b.height, px⟩)
            status := 0
            outbox := s.outbox ++ [⟨[0], []⟩]
            draws := n } ∧
        ∀ d col row, col < b.width → row < b.height → ∃ c, px[row * b.width + col]? = some c ∧
          Color.sameUpToNan c (convolvedPixel d b k m col row) = true)

/-- R45, R104: the result of a convolution depends on the source buffer and the kernel alone, except for the sign and
payload of NaN results: two machines that agree on the source slot and the capacity, whatever else they hold, get
destination buffers equal up to NaN. -/
def Obligations.ConvDeterministicUpToNan : Prop :=
  ∀ (s s' t t' : State) (rd rs : SlotIx) (k : List Word) (b : Buf), s.pb[rs.toNat]? = some (.buf b) →
    s'.pb[rs.toNat]? = some (.buf b) → b.wf s.pbCap = true → s'.pbCap = s.pbCap →
    exec (.convApply rd rs k) s = .next t → exec (.convApply rd rs k) s' = .next t' →
    t.status = 0 → t'.status = 0 →
      ∃ px px', t.pb[rd.toNat]? = some (.buf ⟨b.width, b.height, px⟩) ∧
        t'.pb[rd.toNat]? = some (.buf ⟨b.width, b.height, px'⟩) ∧
        List.Forall₂ (fun c c' => Color.sameUpToNan c c' = true) px px'

/-- R105 (b): no channel of a convolution's result is -0.0. -/
def Obligations.ConvNeverNegativeZero : Prop :=
  ∀ (d : Nat) (b : Buf) (k : List Word) (m col row : Nat),
    (convPixel d b k m col row).all (fun w => decide (w ≠ 0x80000000)) = true

/-- R105 (a), (c): a NaN term makes that channel of a destination pixel NaN. A term is a NaN when the sample's channel or
the weight is, or when one is infinite and the other zero; a NaN weight makes every channel NaN. -/
def Obligations.NanTermGivesNan : Prop :=
  ∀ (d : Nat) (b : Buf) (k : List Word) (m col row i : Nat), i < m * m →
    let p := convPixel d b k m col row
    let c := sample b m col row i
    let w := weightAt (reversed k) i
    (isNan w = true → p.all isNan = true) ∧
    (nanProduct c.r w = true → isNan p.r = true) ∧ (nanProduct c.g w = true → isNan p.g = true) ∧
    (nanProduct c.b w = true → isNan p.b = true)

/-- R13, R105 (f): the channels never interact: a channel of a destination pixel depends only on that channel of the
source and on the kernel. NaNs are compared as one class, so the numbers of the free values are any two (log entry
4). -/
def Obligations.ChannelsAreIndependent : Prop :=
  ∀ (d d' : Nat) (b b' : Buf) (k : List Word) (m col row : Nat), b'.width = b.width → b'.height = b.height →
    let p := convPixel d b k m col row
    let p' := convPixel d' b' k m col row
    (b'.px.map Color.r = b.px.map Color.r → sameUpToNan p'.r p.r = true) ∧
    (b'.px.map Color.g = b.px.map Color.g → sameUpToNan p'.g p.g = true) ∧
    (b'.px.map Color.b = b.px.map Color.b → sameUpToNan p'.b p.b = true)

/-- R107: convolving with the 1x1 kernel of weight 1.0: every channel comes back bit for bit but -0.0, which comes back
+0.0, and NaN, which comes back a NaN. -/
def Obligations.IdentityKernel : Prop :=
  ∀ (d : Nat) (b : Buf) (cap : Nat) (r : Buf), b.wf cap = true → convBuffer cap d b [0x3F800000] = .ok r →
    r.width = b.width ∧ r.height = b.height ∧
      List.Forall₂ (fun c c' => Color.sameUpToNan (Color.map (fun w => if w = 0x80000000 then 0 else w) c) c' = true)
        b.px r.px

/-- R107: for a decoded image the identity kernel gives the source back bit for bit. -/
def Obligations.IdentityKernelOfDecodedImage : Prop :=
  ∀ (s t u : State) (rd rs : SlotIx), exec (.bmpDecode rs) s = .next t → t.status = 0 →
    exec (.convApply rd rs [0x3F800000]) t = .next u → u.status = 0 →
      u.pb[rd.toNat]? = t.pb[rs.toNat]?

/-- R108: every output pixel of a constant image is the same, up to NaN, whatever the image's size and the pixel's
place: all samples are the constant. -/
def Obligations.ConstantImageStaysConstant : Prop :=
  ∀ (cap d d' m col row col' row' : Nat) (b : Buf) (c : Color) (k : List Word), b.wf cap = true →
    (∀ p ∈ b.px, p = c) →
      Color.sameUpToNan (convPixel d b k m col row) (convPixel d' b k m col' row') = true

/-! ## Arithmetic -/

/-- R12, R23, R53, R105 (d): the sum of finite values: below the rounding threshold of the largest finite value it is
finite and a value nearest to the exact sum, ties to even; from the threshold on it is the infinity of the exact sum's
sign. -/
def Obligations.FaddRoundsToNearest : Prop :=
  ∀ (d : Nat) (a b : Word), isFinite a = true → isFinite b = true →
    let q := fValue a + fValue b
    (|q| < 2 ^ 128 - 2 ^ 103 → isFinite (fadd d a b) = true ∧ nearest q (fadd d a b)) ∧
    (2 ^ 128 - 2 ^ 103 ≤ |q| → fadd d a b = infOf (decide (q < 0)))

/-- R12, R23, R53, R105 (d): the product of finite values, likewise. -/
def Obligations.FmulRoundsToNearest : Prop :=
  ∀ (d : Nat) (a b : Word), isFinite a = true → isFinite b = true →
    let q := fValue a * fValue b
    (|q| < 2 ^ 128 - 2 ^ 103 → isFinite (fmul d a b) = true ∧ nearest q (fmul d a b)) ∧
    (2 ^ 128 - 2 ^ 103 ≤ |q| → fmul d a b = infOf (decide (q < 0)))

/-- R12, R23, R53: the quotient of finite values by a divisor other than zero, likewise. -/
def Obligations.FdivRoundsToNearest : Prop :=
  ∀ (d : Nat) (a b : Word), isFinite a = true → isFinite b = true → fValue b ≠ 0 →
    let q := fValue a / fValue b
    (|q| < 2 ^ 128 - 2 ^ 103 → isFinite (fdiv d a b) = true ∧ nearest q (fdiv d a b)) ∧
    (2 ^ 128 - 2 ^ 103 ≤ |q| → fdiv d a b = infOf (decide (q < 0)))

/-- R12, R105 (a): infinite operands, and a zero divisor. An infinity plus a finite value, or plus itself, is that
infinity; the two infinities have a NaN sum. A product is a NaN exactly for a NaN or for an infinity with a zero, and
otherwise an infinity if an operand is one. A quotient is a NaN for two infinities or two zeros; an infinity over a
finite value and a finite value other than zero over a zero are infinities; a finite value over an infinity is a zero.
Signs are those of the operands combined. The meaning of the operations is IEEE 754's (log entry 6). -/
def Obligations.InfiniteOperands : Prop :=
  ∀ (d : Nat) (a b : Word),
    (isInf a = true → isFinite b = true ∨ b = a → fadd d a b = a ∧ fadd d b a = a) ∧
    (isInf a = true → isInf b = true → a ≠ b → isNan (fadd d a b) = true) ∧
    isNan (fmul d a b) = nanProduct a b ∧
    (isInf a = true ∨ isInf b = true → nanProduct a b = false → fmul d a b = infOf (fSign a != fSign b)) ∧
    ((isInf a = true ∧ isInf b = true) ∨ (isZero a = true ∧ isZero b = true) → isNan (fdiv d a b) = true) ∧
    ((isInf a = true ∧ isFinite b = true) ∨ (isFinite a = true ∧ isZero a = false ∧ isZero b = true) →
      fdiv d a b = infOf (fSign a != fSign b)) ∧
    (isFinite a = true → isInf b = true → fdiv d a b = zeroOf (fSign a != fSign b))

/-- R12, R105 (b): signs. A product's or quotient's sign is negative exactly when the operands' signs differ, unless it
is a NaN; an exact zero sum of finite values is +0.0 unless both are -0.0. -/
def Obligations.SignsOfResults : Prop :=
  ∀ (d : Nat) (a b : Word),
    (isNan (fmul d a b) = false → fSign (fmul d a b) = (fSign a != fSign b)) ∧
    (isNan (fdiv d a b) = false → fSign (fdiv d a b) = (fSign a != fSign b)) ∧
    (isFinite a = true → isFinite b = true → fValue a + fValue b = 0 →
      fadd d a b = if a = 0x80000000 ∧ b = 0x80000000 then 0x80000000 else 0)

/-- R12, R105: a NaN operand gives a quiet NaN, whatever the other operand. Which one is free (log entry 4); which
patterns are quiet is the model's reading (log entry 5). -/
def Obligations.NanOperandsGiveNan : Prop :=
  ∀ (d : Nat) (a b : Word), isNan a = true ∨ isNan b = true →
    isQuietNan (fadd d a b) = true ∧ isQuietNan (fmul d a b) = true ∧ isQuietNan (fdiv d a b) = true

/-! ## The pipeline -/

/-- R68, R136: the pipeline CONVOLVE on two different slots, with a stream that decodes, a legal kernel and a writable
sink: three successful responses, and SNK gets the encoding of the convolution of the decoded image. The convolution is
the one whose free values begin at the state's counter (log entry 4); the run is that of a host that presents the three
packets (hostRun, log entry 18). -/
def Obligations.PipelineResult : Prop :=
  ∀ (s : State) (a b : SlotIx) (k : List Word) (bytes : List Byte) (img : Buf), a.toNat < s.pb.length →
    b.toNat < s.pb.length → a ≠ b → decodeBmp s.pbCap (some bytes) = .ok img → k.length ∈ legalLengths →
      ∃ t out, convBuffer s.pbCap s.draws img k = .ok out ∧
        hostRun (present (some bytes) true (convolve a b k)) s = .next t ∧
        t.outbox = s.outbox ++ [⟨[0], []⟩, ⟨[0], []⟩, ⟨[0], encodeBmp out⟩] ∧
        t.pb[a.toNat]? = some (.buf img) ∧ t.pb[b.toNat]? = some (.buf out) ∧ t.status = 0

/-- R68: the host presents nothing after the first response that is not 0: of the replies of its run only the last can
be an error. -/
def Obligations.HostStopsAtFirstError : Prop :=
  ∀ (es : List HostEvent) (s t : State), hostRun es s = .next t →
    ∃ rs : List Reply, t.outbox = s.outbox ++ rs ∧ rs.length ≤ es.length ∧
      ∀ r ∈ rs.dropLast, r.words.head? = some 0
end

