-- ==== Sys2Proof/Machine/Assembler.lean ====
section
/-! DEFINITION. The assembler of spec/30_encoding.md R67 and R68: one command per line to its packets. It is a tool of
the host and touches no state. -/

namespace Sys2Proof.Machine

/-- What a line is cut into. -/
inductive Tok where
  | word (cs : List Char)
  | comma
  | opening
  | closing
deriving DecidableEq, Repr

/-- A word that ends here, if one was begun (its characters are held in reverse). -/
def flushWord (cur : List Char) : List Tok := if cur = [] then [] else [.word cur.reverse]

/-- The tokens of a line. A semicolon starts a comment (R67). -/
def tokens : List Char → List Char → List Tok
  | [], cur => flushWord cur
  | c :: cs, cur =>
    if c = ';' then flushWord cur
    else if c = ' ' ∨ c = '\t' then flushWord cur ++ tokens cs []
    else if c = ',' then flushWord cur ++ .comma :: tokens cs []
    else if c = '[' then flushWord cur ++ .opening :: tokens cs []
    else if c = ']' then flushWord cur ++ .closing :: tokens cs []
    else tokens cs (c :: cur)

/-- A digit of a base up to 16, capitals or not. -/
def digit (base : Nat) (c : Char) : Option Nat :=
  let v :=
    if '0' ≤ c ∧ c ≤ '9' then c.toNat - 48
    else if 'A' ≤ c ∧ c ≤ 'F' then c.toNat - 55
    else if 'a' ≤ c ∧ c ≤ 'f' then c.toNat - 87
    else base
  if v < base then some v else none

/-- The number that digits go on to from `acc`; none if one is no digit of the base. -/
def digitsFrom (base : Nat) : Nat → List Char → Option Nat
  | acc, [] => some acc
  | acc, c :: cs =>
    match digit base c with
    | none => none
    | some v => digitsFrom base (acc * base + v) cs

/-- A number of at least one digit. -/
def number (base : Nat) (cs : List Char) : Option Nat := if cs = [] then none else digitsFrom base 0 cs

/-- `pb<i>` names slot i in decimal (R67). The field has 4 bits; whether the block has the slot is the decoder's test. -/
def slotOperand : List Char → Option SlotIx
  | 'p' :: 'b' :: cs =>
    match number 10 cs with
    | some n => if n < 16 then some (BitVec.ofNat 4 n) else none
    | none => none
  | _ => none

/-- An integer operand: decimal with an optional leading minus, or 0x and the 32-bit pattern (R67). -/
def intOperand : List Char → Option Word
  | '0' :: 'x' :: cs => (number 16 cs).map (BitVec.ofNat 32)
  | '-' :: cs => (number 10 cs).map fun n => BitVec.ofInt 32 (-(n : Int))
  | cs => (number 10 cs).map (BitVec.ofNat 32)

/-- The binary32 value nearest to `num / den`, ties to even: the quotient keeps at least 29 bits and a last bit that
says whether a remainder is left (R67). -/
def roundRatio (neg : Bool) (num den : Nat) : Word :=
  let t := 30 + den.log2
  roundPack neg (2 * (num * 2 ^ t / den) + (if num * 2 ^ t % den = 0 then 0 else 1)) (-(t : Int) - 1)

/-- A decimal literal without its sign: digits, and possibly a point and more digits (R67; log entry 19). -/
def decimal (neg : Bool) (cs : List Char) : Option Word :=
  let whole := cs.takeWhile (· ≠ '.')
  match cs.dropWhile (· ≠ '.') with
  | [] => (number 10 whole).map fun n => roundRatio neg n 1
  | _ :: frac => (number 10 (whole ++ frac)).map fun n => roundRatio neg n (10 ^ frac.length)

/-- A floating-point operand: a decimal literal, or 0f and eight hexadecimal digits of the bit pattern (R67). -/
def floatOperand : List Char → Option Word
  | '0' :: 'f' :: cs => if cs.length = 8 then (number 16 cs).map (BitVec.ofNat 32) else none
  | '-' :: cs => decimal true cs
  | cs => decimal false cs

/-- The rest of a bracketed list of floating-point operands, after an element (R67). -/
def kernelTail : List Tok → Option (List Word)
  | [.closing] => some []
  | .comma :: .word w :: ts =>
    match floatOperand w, kernelTail ts with
    | some v, some vs => some (v :: vs)
    | _, _ => none
  | _ => none

/-- A kernel: a bracketed list of floating-point operands, possibly empty (R67). -/
def kernelOperand : List Tok → Option (List Word)
  | [.opening, .closing] => some []
  | .opening :: .word w :: ts =>
    match floatOperand w, kernelTail ts with
    | some v, some vs => some (v :: vs)
    | _, _ => none
  | _ => none

/-- The box blur, the one kernel preset whose weights the spec gives (R69): nine weights `0f3DE38E39`. It is the host's
data, written out in a program; no preset name is a symbol of the assembler, and the Gaussian presets' weights are not
in the spec. -/
def boxBlur : List Word := List.replicate 9 0x3DE38E39

/-- The commands of a mnemonic and its operands: one for each of the eight, three for CONVOLVE, where the two slots
must differ (R67, R68). -/
def command (m : List Char) (ts : List Tok) : Option (List Instr) :=
  match ts with
  | [.word a] =>
    (slotOperand a).bind fun s =>
      if m = "PB_WIDTH".toList then some [.pbWidth s]
      else if m = "PB_HEIGHT".toList then some [.pbHeight s]
      else if m = "BMP_DECODE".toList then some [.bmpDecode s]
      else if m = "BMP_ENCODE".toList then some [.bmpEncode s]
      else none
  | [.word a, .comma, .word x, .comma, .word y] =>
    (slotOperand a).bind fun s => (intOperand x).bind fun x => (intOperand y).bind fun y =>
      if m = "PB_CREATE".toList then some [.pbCreate s x y]
      else if m = "PB_GET".toList then some [.pbGet s x y]
      else none
  | [.word a, .comma, .word x, .comma, .word y, .comma, .word r, .comma, .word g, .comma, .word b] =>
    (slotOperand a).bind fun s => (intOperand x).bind fun x => (intOperand y).bind fun y =>
      (floatOperand r).bind fun r => (floatOperand g).bind fun g => (floatOperand b).bind fun b =>
        if m = "PB_SET".toList then some [.pbSet s x y r g b] else none
  | .word a :: .comma :: .word b :: .comma :: ks =>
    (slotOperand a).bind fun a => (slotOperand b).bind fun b => (kernelOperand ks).bind fun k =>
      if m = "CONV_APPLY".toList then some [.convApply a b k]
      else if m = "CONVOLVE".toList then (if a = b then none else some (convolve a b k))
      else none
  | _ => none

/-- The commands of one line; a blank or comment line has none, and `none` is a line that is not of the syntax. -/
def assembleLine (line : List Char) : Option (List Instr) :=
  match tokens line [] with
  | [] => some []
  | .word m :: ts => command m ts
  | _ => none

/-- The packets of one line (the packet column of R67). -/
def assemble (line : List Char) : Option (List (List Word)) := (assembleLine line).map (·.map encode)

end Sys2Proof.Machine
end

