-- ==== Sys2Proof/Laws/Assembler.lean ====
section
/-! SUPPORT. What the assembler does with kernels: the box blur's weights, and that a name never stands for a kernel
(spec/30_encoding.md R69). -/

namespace Sys2Proof.Machine

/-- Each weight of the box blur is `fdiv(1.0, 9.0)` (R69). -/
theorem boxBlur_eq (d : Nat) : boxBlur = List.replicate 9 (fdiv d fOne 0x41100000) := by
  have h : divVal (unpack fOne) (unpack 0x41100000) = some 0x3DE38E39 := by decide
  unfold boxBlur fdiv
  rw [h]
  rfl

/-- Only a bracketed list is a kernel: a word, such as a preset's name, is none (R67, R69). -/
theorem kernelOperand_word (w : List Char) (ts : List Tok) : kernelOperand (.word w :: ts) = none := by
  unfold kernelOperand
  split <;> simp_all

/-- A word in the place of a kernel makes the line no command, with CONV_APPLY and with CONVOLVE (R69). -/
theorem command_word_kernel (a b w : List Char) :
    command "CONV_APPLY".toList [.word a, .comma, .word b, .comma, .word w] = none ∧
      command "CONVOLVE".toList [.word a, .comma, .word b, .comma, .word w] = none := by
  constructor <;> simp [command]

/-- A letter is no decimal digit. -/
theorem digit_letter {c : Char} (hc : c.isAlpha = true) : digit 10 c = none := by
  simp only [Char.isAlpha, Char.isUpper, Char.isLower, Bool.or_eq_true, Bool.and_eq_true, decide_eq_true_eq,
    ge_iff_le, UInt32.le_iff_toNat_le] at hc
  have e : c.toNat = c.val.toNat := rfl
  simp only [digit, Char.le_def, UInt32.le_iff_toNat_le, e]
  simp only [show ('0' : Char).val.toNat = 48 from rfl, show ('9' : Char).val.toNat = 57 from rfl,
    show ('A' : Char).val.toNat = 65 from rfl, show ('F' : Char).val.toNat = 70 from rfl,
    show ('a' : Char).val.toNat = 97 from rfl, show ('f' : Char).val.toNat = 102 from rfl] at hc ⊢
  split_ifs <;> first | rfl | omega

/-- Text that begins with a letter is no decimal number. -/
theorem number_letter {c : Char} (hc : c.isAlpha = true) (cs : List Char) : number 10 (c :: cs) = none := by
  simp [number, digitsFrom, digit_letter hc]

/-- Within the brackets a word that begins with a letter, such as a preset's name, is no weight (R67, R69). -/
theorem floatOperand_letter {c : Char} (hc : c.isAlpha = true) (cs : List Char) : floatOperand (c :: cs) = none := by
  have h0 : c ≠ '0' := by rintro rfl; exact absurd hc (by decide)
  have h1 : c ≠ '-' := by rintro rfl; exact absurd hc (by decide)
  have h2 : c ≠ '.' := by rintro rfl; exact absurd hc (by decide)
  unfold floatOperand
  split
  · rename_i h; cases h; exact absurd rfl h0
  · rename_i h; cases h; exact absurd rfl h1
  · unfold decimal
    simp only [List.takeWhile_cons, h2, ne_eq, not_false_eq_true, decide_true, if_true]
    split
    · simp [number_letter hc]
    · simp [number_letter hc]

end Sys2Proof.Machine
end

