-- ==== Sys2Proof/Laws/Float.lean ====
section
/-! SUPPORT. The small lemmas of the arithmetic: fields of a pattern, NaNs as a class, and what packing a sign and a
magnitude gives. -/

namespace Sys2Proof.Machine

theorem fSign_eq (w : Word) : fSign w = decide (2 ^ 31 ≤ w.toNat) := by
  simp [fSign, BitVec.msb_eq_decide]

/-- A pattern is its sign, its biased exponent and its fraction. -/
theorem toNat_eq_fields (w : Word) :
    w.toNat = (if fSign w then 2 ^ 31 else 0) + fExp w * 2 ^ 23 + fFrac w := by
  have h := w.isLt
  simp only [fSign_eq, fExp, fFrac, decide_eq_true_eq]
  split <;> omega

theorem fExp_le (w : Word) : fExp w ≤ 255 := by
  unfold fExp
  omega

theorem fFrac_lt (w : Word) : fFrac w < 2 ^ 23 := by
  unfold fFrac
  omega

/-- The NaN patterns are those whose value is NaN. -/
theorem isNan_iff (w : Word) : isNan w = true ↔ unpack w = .nan := by
  unfold isNan unpack
  split
  · split <;> simp_all
  · split <;> simp_all

/-- The exact value of a pattern from what it stands for. -/
theorem fValue_of_unpack {w : Word} {neg : Bool} {m : Nat} {e : Int} (h : unpack w = .fin neg m e) :
    fValue w = (signed neg m : ℚ) * (2 : ℚ) ^ e := by
  unfold fValue
  rw [h]

/-- A pattern is finite exactly when it stands for a finite value. -/
theorem isFinite_iff (w : Word) : isFinite w = true ↔ ∃ neg m e, unpack w = .fin neg m e := by
  unfold isFinite unpack
  by_cases h : fExp w = 255
  · by_cases h' : fFrac w = 0 <;> simp [h, h']
  · by_cases h' : fExp w = 0 <;> simp [h, h']

theorem packMag_toNat (neg : Bool) (mag : Nat) :
    (packMag neg mag).toNat = (if neg then 2 ^ 31 else 0) + min mag 0x7F800000 := by
  unfold packMag
  rw [BitVec.toNat_ofNat]
  cases neg
  · simp
  · simp
    omega

theorem fExp_packMag (neg : Bool) (mag : Nat) : fExp (packMag neg mag) = min mag 0x7F800000 / 2 ^ 23 := by
  unfold fExp
  rw [packMag_toNat]
  cases neg <;> (simp; omega)

theorem fFrac_packMag (neg : Bool) (mag : Nat) : fFrac (packMag neg mag) = min mag 0x7F800000 % 2 ^ 23 := by
  unfold fFrac
  rw [packMag_toNat]
  cases neg
  · simp
  · simp
    omega

theorem fSign_packMag (neg : Bool) (mag : Nat) : fSign (packMag neg mag) = neg := by
  rw [fSign_eq, packMag_toNat]
  cases neg <;> simp

/-- A packed magnitude is never a NaN. -/
theorem isNan_packMag (neg : Bool) (mag : Nat) : isNan (packMag neg mag) = false := by
  simp only [isNan, fExp_packMag, fFrac_packMag, Bool.and_eq_false_iff, decide_eq_false_iff_not]
  omega

/-- A pattern that is no NaN is the packing of its own fields. -/
theorem packMag_fields {w : Word} (h : isNan w = false) : packMag (fSign w) (fExp w * 2 ^ 23 + fFrac w) = w := by
  apply BitVec.eq_of_toNat_eq
  rw [packMag_toNat]
  have hle : fExp w * 2 ^ 23 + fFrac w ≤ 0x7F800000 := by
    have h1 := fExp_le w
    have h2 := fFrac_lt w
    simp only [isNan, Bool.and_eq_false_iff, decide_eq_false_iff_not] at h
    omega
  rw [Nat.min_eq_left hle, toNat_eq_fields w]
  omega

/-- The free NaN is a quiet NaN, whatever its number (R12). -/
theorem quietNan_toNat (d : Nat) : ∃ (neg : Bool) (p : Nat), p < 2 ^ 22 ∧
    (quietNan d).toNat = (if neg then 2 ^ 31 else 0) + 0x7FC00000 + p := by
  refine ⟨(Config.freeNan d).getLsbD 22, (Config.freeNan d).toNat % 2 ^ 22, Nat.mod_lt _ (by decide), ?_⟩
  unfold quietNan
  generalize Config.freeNan d = f
  have hs : (f.extractLsb' 22 1).toNat = if f.getLsbD 22 then 1 else 0 := by
    rw [BitVec.extractLsb'_toNat, Nat.shiftRight_eq_div_pow, BitVec.getLsbD, Nat.testBit_eq_decide_div_mod_eq]
    by_cases h : f.toNat / 2 ^ 22 % 2 = 1
    · rw [if_pos (decide_eq_true h), h]
    · rw [if_neg (by simpa using h)]
      omega
  have hl : (f.extractLsb' 0 22).toNat = f.toNat % 2 ^ 22 := by
    rw [BitVec.extractLsb'_toNat, Nat.shiftRight_zero]
  have happ : ∀ {m n : Nat} (x : BitVec m) (y : BitVec n), (x ++ y).toNat = x.toNat * 2 ^ n + y.toNat := by
    intro m n x y
    rw [BitVec.toNat_append, ← Nat.shiftLeft_add_eq_or_of_lt y.isLt, Nat.shiftLeft_eq]
  show ((f.extractLsb' 22 1 ++ 0xFF#8) ++ (1#1 ++ f.extractLsb' 0 22)).toNat = _
  rw [happ, happ, happ, hs, hl]
  cases f.getLsbD 22 <;> simp <;> omega

theorem isNan_quietNan (d : Nat) : isNan (quietNan d) = true := by
  obtain ⟨neg, p, hp, h⟩ := quietNan_toNat d
  simp only [isNan, fExp, fFrac, h, Bool.and_eq_true, decide_eq_true_eq]
  cases neg <;> simp <;> omega

/-- A NaN result is a NaN, and every other result does not depend on the free value. -/
theorem nanOr_cases (d : Nat) (r : Option Word) :
    (r = none ∧ isNan (nanOr d r) = true) ∨ (∃ w, r = some w ∧ nanOr d r = w) := by
  cases r with
  | none => exact .inl ⟨rfl, isNan_quietNan d⟩
  | some w => exact .inr ⟨w, rfl, rfl⟩

/-- An exact significand of at most 24 bits, however far it was shifted up, rounds to itself. -/
theorem roundShift_exact (m r : Nat) : roundShift (m * 2 ^ r) r = m := by
  have h : 0 < 2 ^ r := by positivity
  simp [roundShift, Nat.mul_div_cancel _ h, h.ne]

end Sys2Proof.Machine
end

