-- ==== Sys2Proof/Laws/State.lean ====
section
/-! SUPPORT. One lemma per field per update of State, so that no proof unfolds a record update. -/

namespace Sys2Proof.Machine.State

variable (s : State)

@[simp] theorem setSlot_pb (i : SlotIx) (v : Slot) : (s.setSlot i v).pb = s.pb.set i.toNat v := rfl
@[simp] theorem setSlot_status (i : SlotIx) (v : Slot) : (s.setSlot i v).status = s.status := rfl
@[simp] theorem setSlot_pbCap (i : SlotIx) (v : Slot) : (s.setSlot i v).pbCap = s.pbCap := rfl
@[simp] theorem setSlot_src (i : SlotIx) (v : Slot) : (s.setSlot i v).src = s.src := rfl
@[simp] theorem setSlot_snkOk (i : SlotIx) (v : Slot) : (s.setSlot i v).snkOk = s.snkOk := rfl
@[simp] theorem setSlot_inbox (i : SlotIx) (v : Slot) : (s.setSlot i v).inbox = s.inbox := rfl
@[simp] theorem setSlot_outbox (i : SlotIx) (v : Slot) : (s.setSlot i v).outbox = s.outbox := rfl
@[simp] theorem setSlot_draws (i : SlotIx) (v : Slot) : (s.setSlot i v).draws = s.draws := rfl

@[simp] theorem answer_pb (c : BitVec 8) (rs : List Word) (k : List Byte) : (s.answer c rs k).pb = s.pb := rfl
@[simp] theorem answer_status (c : BitVec 8) (rs : List Word) (k : List Byte) : (s.answer c rs k).status = c := rfl
@[simp] theorem answer_pbCap (c : BitVec 8) (rs : List Word) (k : List Byte) : (s.answer c rs k).pbCap = s.pbCap := rfl
@[simp] theorem answer_src (c : BitVec 8) (rs : List Word) (k : List Byte) : (s.answer c rs k).src = s.src := rfl
@[simp] theorem answer_snkOk (c : BitVec 8) (rs : List Word) (k : List Byte) : (s.answer c rs k).snkOk = s.snkOk := rfl
@[simp] theorem answer_inbox (c : BitVec 8) (rs : List Word) (k : List Byte) : (s.answer c rs k).inbox = s.inbox := rfl
@[simp] theorem answer_outbox (c : BitVec 8) (rs : List Word) (k : List Byte) : (s.answer c rs k).outbox = s.outbox ++ [⟨statusWord c :: rs, k⟩] := rfl
@[simp] theorem answer_draws (c : BitVec 8) (rs : List Word) (k : List Byte) : (s.answer c rs k).draws = s.draws := rfl

@[simp] theorem complete_pb (rs : List Word) (k : List Byte) : (s.complete rs k).pb = s.pb := rfl
@[simp] theorem complete_status (rs : List Word) (k : List Byte) : (s.complete rs k).status = codeOk := rfl
@[simp] theorem complete_pbCap (rs : List Word) (k : List Byte) : (s.complete rs k).pbCap = s.pbCap := rfl
@[simp] theorem complete_src (rs : List Word) (k : List Byte) : (s.complete rs k).src = s.src := rfl
@[simp] theorem complete_snkOk (rs : List Word) (k : List Byte) : (s.complete rs k).snkOk = s.snkOk := rfl
@[simp] theorem complete_inbox (rs : List Word) (k : List Byte) : (s.complete rs k).inbox = s.inbox := rfl
@[simp] theorem complete_outbox (rs : List Word) (k : List Byte) : (s.complete rs k).outbox = s.outbox ++ [⟨statusWord codeOk :: rs, k⟩] := rfl
@[simp] theorem complete_draws (rs : List Word) (k : List Byte) : (s.complete rs k).draws = s.draws := rfl

@[simp] theorem present_pb (b : Option (List Byte)) (ok : Bool) (rest : List HostEvent) : (s.present b ok rest).pb = s.pb := rfl
@[simp] theorem present_status (b : Option (List Byte)) (ok : Bool) (rest : List HostEvent) : (s.present b ok rest).status = s.status := rfl
@[simp] theorem present_pbCap (b : Option (List Byte)) (ok : Bool) (rest : List HostEvent) : (s.present b ok rest).pbCap = s.pbCap := rfl
@[simp] theorem present_src (b : Option (List Byte)) (ok : Bool) (rest : List HostEvent) : (s.present b ok rest).src = b := rfl
@[simp] theorem present_snkOk (b : Option (List Byte)) (ok : Bool) (rest : List HostEvent) : (s.present b ok rest).snkOk = ok := rfl
@[simp] theorem present_inbox (b : Option (List Byte)) (ok : Bool) (rest : List HostEvent) : (s.present b ok rest).inbox = rest := rfl
@[simp] theorem present_outbox (b : Option (List Byte)) (ok : Bool) (rest : List HostEvent) : (s.present b ok rest).outbox = s.outbox := rfl
@[simp] theorem present_draws (b : Option (List Byte)) (ok : Bool) (rest : List HostEvent) : (s.present b ok rest).draws = s.draws := rfl

@[simp] theorem resetBlock_pb (rest : List HostEvent) : (s.resetBlock rest).pb = List.replicate s.nbuf Slot.empty := rfl
@[simp] theorem resetBlock_status (rest : List HostEvent) : (s.resetBlock rest).status = 0 := rfl
@[simp] theorem resetBlock_pbCap (rest : List HostEvent) : (s.resetBlock rest).pbCap = s.pbCap := rfl
@[simp] theorem resetBlock_src (rest : List HostEvent) : (s.resetBlock rest).src = s.src := rfl
@[simp] theorem resetBlock_snkOk (rest : List HostEvent) : (s.resetBlock rest).snkOk = s.snkOk := rfl
@[simp] theorem resetBlock_inbox (rest : List HostEvent) : (s.resetBlock rest).inbox = rest := rfl
@[simp] theorem resetBlock_outbox (rest : List HostEvent) : (s.resetBlock rest).outbox = s.outbox := rfl
@[simp] theorem resetBlock_draws (rest : List HostEvent) : (s.resetBlock rest).draws = s.draws := rfl

@[simp] theorem drawn_pb (n : Nat) : (s.drawn n).pb = s.pb := rfl
@[simp] theorem drawn_status (n : Nat) : (s.drawn n).status = s.status := rfl
@[simp] theorem drawn_pbCap (n : Nat) : (s.drawn n).pbCap = s.pbCap := rfl
@[simp] theorem drawn_src (n : Nat) : (s.drawn n).src = s.src := rfl
@[simp] theorem drawn_snkOk (n : Nat) : (s.drawn n).snkOk = s.snkOk := rfl
@[simp] theorem drawn_inbox (n : Nat) : (s.drawn n).inbox = s.inbox := rfl
@[simp] theorem drawn_outbox (n : Nat) : (s.drawn n).outbox = s.outbox := rfl
@[simp] theorem drawn_draws (n : Nat) : (s.drawn n).draws = s.draws + n := rfl

@[simp] theorem withFetchWord_pb (n w : Nat) : (s.withFetchWord n w).pb = s.pb := rfl
@[simp] theorem withFetchWord_status (n w : Nat) : (s.withFetchWord n w).status = s.status := rfl
@[simp] theorem withFetchWord_pbCap (n w : Nat) : (s.withFetchWord n w).pbCap = s.pbCap := rfl
@[simp] theorem withFetchWord_src (n w : Nat) : (s.withFetchWord n w).src = s.src := rfl
@[simp] theorem withFetchWord_snkOk (n w : Nat) : (s.withFetchWord n w).snkOk = s.snkOk := rfl
@[simp] theorem withFetchWord_inbox (n w : Nat) :
    (s.withFetchWord n w).inbox = .command (tablePacket n w) s.src s.snkOk :: s.inbox := rfl
@[simp] theorem withFetchWord_outbox (n w : Nat) : (s.withFetchWord n w).outbox = s.outbox := rfl
@[simp] theorem withFetchWord_draws (n w : Nat) : (s.withFetchWord n w).draws = s.draws := rfl

@[simp] theorem raise_status (e : ErrKind) (rd : Option SlotIx) : (s.raise e rd).status = errCode e := by
  cases rd <;> rfl
@[simp] theorem raise_pbCap (e : ErrKind) (rd : Option SlotIx) : (s.raise e rd).pbCap = s.pbCap := by
  cases rd <;> rfl
@[simp] theorem raise_src (e : ErrKind) (rd : Option SlotIx) : (s.raise e rd).src = s.src := by
  cases rd <;> rfl
@[simp] theorem raise_snkOk (e : ErrKind) (rd : Option SlotIx) : (s.raise e rd).snkOk = s.snkOk := by
  cases rd <;> rfl
@[simp] theorem raise_inbox (e : ErrKind) (rd : Option SlotIx) : (s.raise e rd).inbox = s.inbox := by
  cases rd <;> rfl
@[simp] theorem raise_outbox (e : ErrKind) (rd : Option SlotIx) : (s.raise e rd).outbox = s.outbox ++ [⟨[statusWord (errCode e)], []⟩] := by
  cases rd <;> rfl
@[simp] theorem raise_draws (e : ErrKind) (rd : Option SlotIx) : (s.raise e rd).draws = s.draws := by
  cases rd <;> rfl
@[simp] theorem illegal_pb : s.illegal.pb = s.pb := rfl
@[simp] theorem illegal_status : s.illegal.status = errCode .illegalCommand := rfl
@[simp] theorem illegal_pbCap : s.illegal.pbCap = s.pbCap := rfl
@[simp] theorem illegal_src : s.illegal.src = s.src := rfl
@[simp] theorem illegal_snkOk : s.illegal.snkOk = s.snkOk := rfl
@[simp] theorem illegal_inbox : s.illegal.inbox = s.inbox := rfl
@[simp] theorem illegal_outbox : s.illegal.outbox = s.outbox ++ [⟨[statusWord (errCode .illegalCommand)], []⟩] := rfl
@[simp] theorem illegal_draws : s.illegal.draws = s.draws := rfl

@[simp] theorem raise_none_pb (e : ErrKind) : (s.raise e none).pb = s.pb := rfl
@[simp] theorem raise_some_pb (e : ErrKind) (i : SlotIx) :
    (s.raise e (some i)).pb = s.pb.set i.toNat .empty := rfl

@[simp] theorem setSlot_nbuf (i : SlotIx) (v : Slot) : (s.setSlot i v).nbuf = s.nbuf := by simp [nbuf]
@[simp] theorem answer_nbuf (c : BitVec 8) (rs : List Word) (k : List Byte) : (s.answer c rs k).nbuf = s.nbuf := by simp [nbuf]
@[simp] theorem complete_nbuf (rs : List Word) (k : List Byte) : (s.complete rs k).nbuf = s.nbuf := by simp [nbuf]
@[simp] theorem present_nbuf (b : Option (List Byte)) (ok : Bool) (rest : List HostEvent) : (s.present b ok rest).nbuf = s.nbuf := by simp [nbuf]
@[simp] theorem resetBlock_nbuf (rest : List HostEvent) : (s.resetBlock rest).nbuf = s.nbuf := by
  simp [nbuf]
@[simp] theorem drawn_nbuf (n : Nat) : (s.drawn n).nbuf = s.nbuf := by simp [nbuf]
@[simp] theorem raise_nbuf (e : ErrKind) (rd : Option SlotIx) : (s.raise e rd).nbuf = s.nbuf := by
  cases rd <;> simp [nbuf]
@[simp] theorem illegal_nbuf : s.illegal.nbuf = s.nbuf := rfl

end Sys2Proof.Machine.State
end

