-- ==== Sys2Proof/Laws/Ops.lean ====
section
/-! SUPPORT. What each shared operation can do, said once: slots, the prologue, completion, PbCreate, stream reads,
`collect`, pixel reads; and that every operation keeps the pixel memory's form. -/

namespace Sys2Proof.Machine

/-! ## Slots -/

theorem State.slot_congr {s t : State} (h : s.pb = t.pb) (i : SlotIx) : s.slot i = t.slot i := by
  simp [State.slot, h]

theorem State.slot_setSlot_self (s : State) (i : SlotIx) (v : Slot) (h : i.toNat < s.nbuf) :
    (s.setSlot i v).slot i = v := by
  have h' : i.toNat < s.pb.length := h
  simp [State.slot, List.getD_eq_getElem?_getD, h']

theorem State.slot_setSlot_other (s : State) (i j : SlotIx) (v : Slot) (h : i ≠ j) :
    (s.setSlot i v).slot j = s.slot j := by
  have h' : i.toNat ≠ j.toNat := fun e => h (BitVec.eq_of_toNat_eq e)
  simp [State.slot, List.getD_eq_getElem?_getD, List.getElem?_set_ne h']

@[simp] theorem State.answer_slot (s : State) (c : BitVec 8) (rs : List Word) (k : List Byte) (i : SlotIx) :
    (s.answer c rs k).slot i = s.slot i := rfl
@[simp] theorem State.complete_slot (s : State) (rs : List Word) (k : List Byte) (i : SlotIx) :
    (s.complete rs k).slot i = s.slot i := rfl
@[simp] theorem State.present_slot (s : State) (b : Option (List Byte)) (ok : Bool) (rest : List HostEvent)
    (i : SlotIx) : (s.present b ok rest).slot i = s.slot i := rfl
@[simp] theorem State.drawn_slot (s : State) (n : Nat) (i : SlotIx) : (s.drawn n).slot i = s.slot i := rfl
@[simp] theorem State.raise_none_slot (s : State) (e : ErrKind) (i : SlotIx) :
    (s.raise e none).slot i = s.slot i := rfl

/-- A slot that holds a buffer exists. -/
theorem State.lt_nbuf_of_slot {s : State} {i : SlotIx} {b : Buf} (h : s.slot i = .buf b) : i.toNat < s.nbuf := by
  unfold State.slot at h
  rw [List.getD_eq_getElem?_getD] at h
  cases hi : s.pb[i.toNat]? with
  | none => rw [hi] at h; cases h
  | some v =>
    obtain ⟨hlt, -⟩ := List.getElem?_eq_some_iff.1 hi
    exact hlt

/-- A slot that holds a buffer is an element of the buffer file. -/
theorem State.mem_of_slot {s : State} {i : SlotIx} {b : Buf} (h : s.slot i = .buf b) : Slot.buf b ∈ s.pb := by
  unfold State.slot at h
  rw [List.getD_eq_getElem?_getD] at h
  cases hi : s.pb[i.toNat]? with
  | none => rw [hi] at h; cases h
  | some v =>
    rw [hi] at h
    cases (show v = .buf b from h)
    exact List.mem_of_getElem? hi

/-! ## The prologue and the completions -/

/-- The legality test answers a next state in both cases. -/
theorem ifLegal_eq (i : Instr) (s run : State) :
    ifLegal i s run = .next (if i.wellFormed s.nbuf then run else s.illegal) := by
  unfold ifLegal
  split <;> rfl

theorem ifLegal_of_wf {i : Instr} {s : State} (run : State) (h : i.wellFormed s.nbuf = true) :
    ifLegal i s run = .next run := by
  simp [ifLegal, h]

theorem ifLegal_of_not_wf {i : Instr} {s : State} (run : State) (h : i.wellFormed s.nbuf = false) :
    ifLegal i s run = .next s.illegal := by
  simp [ifLegal, h]

theorem withBuffer_buf {s : State} {i : SlotIx} {b : Buf} (h : s.slot i = .buf b) (rd : Option SlotIx)
    (run : Buf → State) : withBuffer s i rd run = run b := by
  simp [withBuffer, h]

theorem withBuffer_empty {s : State} {i : SlotIx} (h : s.slot i = .empty) (rd : Option SlotIx)
    (run : Buf → State) : withBuffer s i rd run = s.raise .emptyBuffer rd := by
  simp [withBuffer, h]

/-- All that the operand fetch can do: run on the slot's buffer, or raise EmptyBuffer. -/
theorem withBuffer_cases (s : State) (i : SlotIx) (rd : Option SlotIx) (run : Buf → State) :
    (∃ b, s.slot i = .buf b ∧ withBuffer s i rd run = run b) ∨
      (s.slot i = .empty ∧ withBuffer s i rd run = s.raise .emptyBuffer rd) := by
  cases h : s.slot i with
  | empty => exact .inr ⟨rfl, withBuffer_empty h rd run⟩
  | buf b => exact .inl ⟨b, rfl, withBuffer_buf h rd run⟩

@[simp] theorem State.store_ok (s : State) (rd : SlotIx) (b : Buf) :
    s.store rd (.ok b) = (s.setSlot rd (.buf b)).complete [] [] := rfl
@[simp] theorem State.store_error (s : State) (rd : SlotIx) (e : ErrKind) :
    s.store rd (.error e) = s.raise e (some rd) := rfl

/-! ## Completion codes -/

theorem errCode_ne_ok (e : ErrKind) : errCode e ≠ codeOk := by cases e <;> decide
theorem errCode_le (e : ErrKind) : (errCode e).toNat ≤ 8 := by cases e <;> decide
theorem errCode_injective {a b : ErrKind} (h : errCode a = errCode b) : a = b := by
  cases a <;> cases b <;> first | rfl | exact absurd h (by decide)

/-! ## Buffers -/

theorem Buf.wf_iff (cap : Nat) (b : Buf) :
    b.wf cap = true ↔ 1 ≤ b.width ∧ 1 ≤ b.height ∧ b.width ≤ Config.dimMax ∧ b.height ≤ Config.dimMax ∧
      b.px.length = b.width * b.height ∧ b.width * b.height ≤ cap := by
  simp [Buf.wf, and_assoc]

/-- All that PbCreate can do (R79). -/
theorem pbCreate_cases (cap : Nat) (w h : Int) :
    ((w ≤ 0 ∨ h ≤ 0) ∧ pbCreate cap w h = .error .invalidDimension) ∨
      (0 < w ∧ 0 < h ∧ (cap : Int) < w * h ∧ pbCreate cap w h = .error .capacityExceeded) ∨
      (0 < w ∧ 0 < h ∧ w * h ≤ cap ∧ pbCreate cap w h =
        .ok ⟨w.toNat, h.toNat, List.replicate (w.toNat * h.toNat) Color.black⟩) := by
  unfold pbCreate
  by_cases h1 : w ≤ 0 ∨ h ≤ 0
  · exact .inl ⟨h1, by rw [if_pos h1]⟩
  · by_cases h2 : (cap : Int) < w * h
    · exact .inr (.inl ⟨by omega, by omega, h2, by rw [if_neg h1, if_pos h2]⟩)
    · exact .inr (.inr ⟨by omega, by omega, by omega, by rw [if_neg h1, if_neg h2]⟩)

theorem pbCreate_ok {cap : Nat} {w h : Int} (hw : 0 < w) (hh : 0 < h) (hc : w * h ≤ cap) :
    pbCreate cap w h = .ok ⟨w.toNat, h.toNat, List.replicate (w.toNat * h.toNat) Color.black⟩ := by
  unfold pbCreate
  rw [if_neg (by omega), if_neg (by omega)]

/-- PbCreate of a well-formed buffer's own size succeeds ("cannot fail: S already fits", R102). -/
theorem pbCreate_of_wf {cap : Nat} {b : Buf} (hb : b.wf cap = true) :
    pbCreate cap b.width b.height =
      .ok ⟨b.width, b.height, List.replicate (b.width * b.height) Color.black⟩ := by
  obtain ⟨h1, h2, -, -, -, h6⟩ := (Buf.wf_iff cap b).1 hb
  simpa using pbCreate_ok (cap := cap) (w := b.width) (h := b.height) (by omega) (by omega) (by exact_mod_cast h6)

theorem s32_lt (w : Word) : s32 w < 2 ^ 31 := by
  have := BitVec.toInt_lt (x := w)
  simpa [s32] using this

theorem s32_ge (w : Word) : -2 ^ 31 ≤ s32 w := by
  have := BitVec.le_toInt (x := w)
  simpa [s32] using this

/-- A buffer that PbCreate makes from signed 32-bit dimensions is well-formed (R16). -/
theorem wf_of_pbCreate {cap : Nat} {w h : Int} {b : Buf} (hw : w < 2 ^ 31) (hh : h < 2 ^ 31)
    (hb : pbCreate cap w h = .ok b) : b.wf cap = true := by
  rcases pbCreate_cases cap w h with ⟨-, e⟩ | ⟨-, -, -, e⟩ | ⟨h1, h2, h3, e⟩
  · rw [e] at hb; cases hb
  · rw [e] at hb; cases hb
  · rw [e] at hb
    cases hb
    obtain ⟨a, rfl⟩ := Int.eq_ofNat_of_zero_le (show 0 ≤ w by omega)
    obtain ⟨c, rfl⟩ := Int.eq_ofNat_of_zero_le (show 0 ≤ h by omega)
    have h3' : a * c ≤ cap := by exact_mod_cast h3
    have e1 : Config.dimMax = 2147483647 := by decide
    refine (Buf.wf_iff _ _).2 ⟨?_, ?_, ?_, ?_, ?_, ?_⟩ <;> simp [e1] <;> omega

/-! ## Pixel memory -/

theorem Memory.wf_iff (cap : Nat) (pb : List Slot) :
    Memory.wf cap pb = true ↔ ∀ v ∈ pb, v.wf cap = true := by
  simp [Memory.wf]

/-- Writing a well-formed slot keeps the pixel memory's form. -/
theorem Memory.wf_set {cap : Nat} {pb : List Slot} {v : Slot} (h : Memory.wf cap pb = true)
    (hv : v.wf cap = true) (i : Nat) : Memory.wf cap (pb.set i v) = true := by
  rw [Memory.wf_iff] at h ⊢
  intro u hu
  rcases List.mem_or_eq_of_mem_set hu with hu | rfl
  · exact h u hu
  · exact hv

/-- An emptied pixel memory has the form. -/
theorem Memory.wf_replicate (cap n : Nat) : Memory.wf cap (List.replicate n .empty) = true := by
  rw [Memory.wf_iff]
  intro v hv
  rw [List.eq_of_mem_replicate hv]
  rfl

/-- The buffer in a slot of a well-formed pixel memory is well-formed. -/
theorem Memory.wf_of_slot {cap : Nat} {s : State} {i : SlotIx} {b : Buf} (h : Memory.wf cap s.pb = true)
    (hs : s.slot i = .buf b) : b.wf cap = true :=
  (Memory.wf_iff _ _).1 h _ (State.mem_of_slot hs)

/-- An error completion keeps the pixel memory's form. -/
theorem Memory.wf_raise {cap : Nat} {s : State} (h : Memory.wf cap s.pb = true) (e : ErrKind)
    (rd : Option SlotIx) : Memory.wf cap (s.raise e rd).pb = true := by
  cases rd with
  | none => exact h
  | some i => exact Memory.wf_set h rfl _

/-- The end of a buffer-producing command keeps the pixel memory's form. -/
theorem Memory.wf_store {cap : Nat} {s : State} (h : Memory.wf cap s.pb = true) (rd : SlotIx)
    (r : Except ErrKind Buf) (hr : ∀ b, r = .ok b → b.wf cap = true) : Memory.wf cap (s.store rd r).pb = true := by
  cases r with
  | error e => exact Memory.wf_raise h e _
  | ok b => exact Memory.wf_set (v := .buf b) h (hr b rfl) _

/-- Reset keeps the pixel memory's form. -/
theorem Memory.wf_resetBlock (s : State) (rest : List HostEvent) (cap : Nat) :
    Memory.wf cap (s.resetBlock rest).pb = true := Memory.wf_replicate _ _

/-- `PxWrite` keeps a buffer well-formed: its size does not change (R17). -/
theorem Buf.wf_pxWrite {cap : Nat} {b : Buf} (h : b.wf cap = true) (x y : Nat) (c : Color) :
    (pxWrite b x y c).wf cap = true := by
  rw [Buf.wf_iff] at h ⊢
  simpa [pxWrite] using h

/-- The reset machine's pixel memory has the form. -/
theorem Memory.wf_reset : Memory.wf State.reset.pbCap State.reset.pb = true := Memory.wf_replicate _ _

/-! ## Streams and sequences -/

/-- All that a stream read can do (R10). -/
theorem memRead_cases (src : List Byte) (off n : Nat) :
    (off + n ≤ src.length ∧ memRead src off n = .ok ((src.drop off).take n)) ∨
      (src.length < off + n ∧ memRead src off n = .error .invalidFormat) := by
  unfold memRead
  by_cases h : off + n ≤ src.length
  · exact .inl ⟨h, if_pos h⟩
  · exact .inr ⟨by omega, if_neg h⟩

/-- A byte of what a successful stream read gives is the stream's byte at that offset. -/
theorem byteAt_memRead {src t : List Byte} {off n : Nat} (h : memRead src off n = .ok t) {i : Nat} (hi : i < n) :
    byteAt t i = byteAt src (off + i) := by
  rcases memRead_cases src off n with ⟨-, e⟩ | ⟨-, e⟩
  · rw [e] at h
    cases h
    simp [byteAt, List.getD_eq_getElem?_getD, hi]
  · rw [e] at h; cases h

variable {ε α β : Type}

@[simp] theorem collect_nil (f : α → Except ε β) : collect f [] = .ok [] := rfl

theorem collect_cons_ok {f : α → Except ε β} {a : α} {as : List α} {b : β} {bs : List β} (ha : f a = .ok b)
    (has : collect f as = .ok bs) : collect f (a :: as) = .ok (b :: bs) := by
  simp [collect, ha, has]

/-- When every element has an answer, `collect` is a map. -/
theorem collect_eq_map {f : α → Except ε β} {g : α → β} {as : List α} (h : ∀ a ∈ as, f a = .ok (g a)) :
    collect f as = .ok (as.map g) := by
  induction as with
  | nil => rfl
  | cons a as ih =>
    exact collect_cons_ok (h a (by simp)) (ih fun x hx => h x (by simp [hx]))

/-- When `collect` fails with `e`, some element does. -/
theorem collect_error {f : α → Except ε β} {as : List α} {e : ε} (h : collect f as = .error e) :
    ∃ a ∈ as, f a = .error e := by
  induction as with
  | nil => cases h
  | cons a as ih =>
    unfold collect at h
    cases ha : f a with
    | error e' => rw [ha] at h; cases h; exact ⟨a, by simp, ha⟩
    | ok b =>
      rw [ha] at h
      cases hs : collect f as with
      | error e' =>
        rw [hs] at h
        cases h
        obtain ⟨x, hx, hfx⟩ := ih hs
        exact ⟨x, by simp [hx], hfx⟩
      | ok bs => rw [hs] at h; cases h

/-- When some element has no answer and every failure is `e`, `collect` fails with `e`. -/
theorem collect_eq_error {f : α → Except ε β} {as : List α} {e : ε} (h : ∃ a ∈ as, ∃ e', f a = .error e')
    (he : ∀ a ∈ as, ∀ e', f a = .error e' → e' = e) : collect f as = .error e := by
  cases hc : collect f as with
  | error e' =>
    obtain ⟨x, hx, hfx⟩ := collect_error hc
    rw [he x hx e' hfx]
  | ok bs =>
    exfalso
    obtain ⟨a, ha, e', hae⟩ := h
    clear he
    induction as generalizing bs with
    | nil => cases ha
    | cons x as ih =>
      unfold collect at hc
      cases hx : f x with
      | error _ => rw [hx] at hc; cases hc
      | ok b =>
        rw [hx] at hc
        cases hs : collect f as with
        | error _ => rw [hs] at hc; cases hc
        | ok cs =>
          rcases List.mem_cons.1 ha with rfl | ha
          · rw [hx] at hae; cases hae
          · exact ih cs hs ha

/-! ## Pixel reads -/

/-- The clamp of a coordinate lands in range (R72). -/
theorem clampi_bounds (v : Int) {n : Nat} (hn : 1 ≤ n) :
    0 ≤ clampi v 0 ((n : Int) - 1) ∧ clampi v 0 ((n : Int) - 1) < n := by
  unfold clampi
  split <;> (try split) <;> omega

theorem clampi_of_mem {v : Int} {n : Nat} (h0 : 0 ≤ v) (h1 : v < n) : clampi v 0 ((n : Int) - 1) = v := by
  unfold clampi
  rw [if_neg (by omega), if_neg (by omega)]

theorem pxIndex_lt {w h x y : Nat} (hx : x < w) (hy : y < h) : pxIndex w x y < w * h := by
  unfold pxIndex
  calc y * w + x < y * w + w := by omega
    _ = w * (y + 1) := by ring
    _ ≤ w * h := Nat.mul_le_mul_left _ hy

/-- In bounds, PbGet reads the pixel itself. -/
theorem pbGet_inBounds (b : Buf) {x y : Nat} (hx : x < b.width) (hy : y < b.height) :
    pbGet b x y = pxAt b.px (pxIndex b.width x y) := by
  unfold pbGet
  rw [clampi_of_mem (by omega) (by omega), clampi_of_mem (by omega) (by omega)]
  simp

/-- PbGet never answers anything but an element of the buffer (R72). -/
theorem pbGet_mem {cap : Nat} {b : Buf} (hb : b.wf cap = true) (x y : Int) : pbGet b x y ∈ b.px := by
  obtain ⟨h1, h2, -, -, h5, -⟩ := (Buf.wf_iff cap b).1 hb
  have hx := clampi_bounds x h1
  have hy := clampi_bounds y h2
  have hlt : pxIndex b.width (clampi x 0 ((b.width : Int) - 1)).toNat (clampi y 0 ((b.height : Int) - 1)).toNat
      < b.px.length := by
    rw [h5]; exact pxIndex_lt (by omega) (by omega)
  unfold pbGet pxAt
  rw [List.getD_eq_getElem?_getD, List.getElem?_eq_getElem hlt]
  exact List.getElem_mem hlt

end Sys2Proof.Machine
end

