-- ==== Sys2Proof/Laws/Convolution.lean ====
section
/-! SUPPORT. What the operations of a convolution can do: the kernel test, the result of CONV_APPLY's computation, its
pixels by index, and arithmetic up to which NaN a NaN is. -/

namespace Sys2Proof.Machine

/-! ## Equal up to NaN -/

theorem sameUpToNan_iff (a b : Word) : sameUpToNan a b = true ↔ a = b ∨ (isNan a = true ∧ isNan b = true) := by
  simp [sameUpToNan]

theorem sameUpToNan_refl (a : Word) : sameUpToNan a a = true := by simp [sameUpToNan]

/-- A result delivered with two free values. -/
theorem sameUpToNan_nanOr (d d' : Nat) (r : Option Word) : sameUpToNan (nanOr d r) (nanOr d' r) = true := by
  cases r with
  | none => simp [sameUpToNan, nanOr, isNan_quietNan]
  | some w => simp [nanOr, sameUpToNan_refl]

theorem addVal_nan_left (v : FVal) : addVal .nan v = none := by cases v <;> rfl
theorem addVal_nan_right (v : FVal) : addVal v .nan = none := by cases v <;> rfl
theorem mulVal_nan_left (v : FVal) : mulVal .nan v = none := by cases v <;> rfl
theorem mulVal_nan_right (v : FVal) : mulVal v .nan = none := by cases v <;> rfl

/-- Two operands equal up to NaN stand for the same value. -/
theorem unpack_congr {a b : Word} (h : sameUpToNan a b = true) : unpack a = unpack b := by
  rcases (sameUpToNan_iff a b).1 h with rfl | ⟨ha, hb⟩
  · rfl
  · rw [(isNan_iff a).1 ha, (isNan_iff b).1 hb]

theorem fadd_congr {a a' b b' : Word} (d d' : Nat) (ha : sameUpToNan a a' = true) (hb : sameUpToNan b b' = true) :
    sameUpToNan (fadd d a b) (fadd d' a' b') = true := by
  unfold fadd
  rw [unpack_congr ha, unpack_congr hb]
  exact sameUpToNan_nanOr _ _ _

theorem fmul_congr {a a' b b' : Word} (d d' : Nat) (ha : sameUpToNan a a' = true) (hb : sameUpToNan b b' = true) :
    sameUpToNan (fmul d a b) (fmul d' a' b') = true := by
  unfold fmul
  rw [unpack_congr ha, unpack_congr hb]
  exact sameUpToNan_nanOr _ _ _

theorem Color.sameUpToNan_iff (a b : Color) : a.sameUpToNan b = true ↔
    Machine.sameUpToNan a.r b.r = true ∧ Machine.sameUpToNan a.g b.g = true ∧ Machine.sameUpToNan a.b b.b = true := by
  simp [Color.sameUpToNan, and_assoc]

theorem cadd_congr {a a' b b' : Color} (d d' : Nat) (ha : a.sameUpToNan a' = true) (hb : b.sameUpToNan b' = true) :
    (cadd d a b).sameUpToNan (cadd d' a' b') = true := by
  rw [Color.sameUpToNan_iff] at *
  exact ⟨fadd_congr _ _ ha.1 hb.1, fadd_congr _ _ ha.2.1 hb.2.1, fadd_congr _ _ ha.2.2 hb.2.2⟩

theorem cscale_congr {c c' : Color} {w w' : Word} (d d' : Nat) (hc : c.sameUpToNan c' = true)
    (hw : sameUpToNan w w' = true) : (cscale d c w).sameUpToNan (cscale d' c' w') = true := by
  rw [Color.sameUpToNan_iff] at *
  exact ⟨fmul_congr _ _ hc.1 hw, fmul_congr _ _ hc.2.1 hw, fmul_congr _ _ hc.2.2 hw⟩

/-! ## The kernel test and the result -/

/-- All that the kernel test can do (R98). -/
theorem kernelSide_cases (len : Nat) :
    (∃ m, m * m = len ∧ m % 2 = 1 ∧ m ≤ Config.mMax ∧ kernelSide len = .ok m) ∨
      kernelSide len = .error .invalidKernel := by
  unfold kernelSide
  dsimp only
  by_cases h1 : isqrt len * isqrt len ≠ len ∨ isqrt len % 2 = 0
  · exact .inr (by rw [if_pos h1])
  · by_cases h2 : Config.mMax < isqrt len
    · exact .inr (by rw [if_neg h1, if_pos h2])
    · refine .inl ⟨isqrt len, ?_, ?_, ?_, by rw [if_neg h1, if_neg h2]⟩
      · exact by_contra fun h => h1 (.inl h)
      · omega
      · omega

/-- All that CONV_APPLY's computation can do on a well-formed buffer (R102). -/
theorem convBuffer_cases {cap : Nat} {b : Buf} (hb : b.wf cap = true) (d : Nat) (k : List Word) :
    (∃ m, kernelSide k.length = .ok m ∧
        convBuffer cap d b k = .ok ⟨b.width, b.height, convPixels d b k m⟩) ∨
      (kernelSide k.length = .error .invalidKernel ∧ convBuffer cap d b k = .error .invalidKernel) := by
  unfold convBuffer
  rcases kernelSide_cases k.length with ⟨m, -, -, -, e⟩ | e
  · exact .inl ⟨m, e, by rw [e, pbCreate_of_wf hb]⟩
  · exact .inr ⟨e, by rw [e]⟩

/-! ## Pixels by index -/

/-- Element `r * w + c` of rows of length `w`. -/
theorem getElem?_flatMap_range {α : Type} (f : Nat → Nat → α) (w : Nat) {n r c : Nat} (hr : r < n) (hc : c < w) :
    ((List.range n).flatMap fun i => (List.range w).map (f i))[r * w + c]? = some (f r c) := by
  induction n with
  | zero => omega
  | succ n ih =>
    rw [List.range_succ, List.flatMap_append]
    have hl : ((List.range n).flatMap fun i => (List.range w).map (f i)).length = n * w := by
      simp
    by_cases h : r < n
    · rw [List.getElem?_append_left (by
        rw [hl]
        calc r * w + c < (r + 1) * w := by rw [Nat.add_mul]; omega
          _ ≤ n * w := Nat.mul_le_mul_right _ h)]
      exact ih h
    · obtain rfl : r = n := by omega
      rw [List.getElem?_append_right (by rw [hl]; omega), hl]
      simp [hc]

/-- Destination pixel (col, row) of a convolution. -/
theorem convPixels_getElem? (d : Nat) (b : Buf) (k : List Word) (m : Nat) {col row : Nat} (hc : col < b.width)
    (hr : row < b.height) :
    (convPixels d b k m)[row * b.width + col]? = some (convPixel (pixelDraw d b m col row) b k m col row) :=
  getElem?_flatMap_range (fun row col => convPixel (pixelDraw d b m col row) b k m col row) _ hr hc

theorem length_convPixels (d : Nat) (b : Buf) (k : List Word) (m : Nat) :
    (convPixels d b k m).length = b.width * b.height := by
  simp [convPixels, Nat.mul_comm]

end Sys2Proof.Machine
end

