-- ==== Sys2Proof/Laws/Decode.lean ====
section
/-! SUPPORT. The small lemmas of the header fields and the operation table. -/

namespace Sys2Proof

@[simp] theorem Opcode.ofByte_byte (op : Opcode) : Opcode.ofByte op.byte = some op := by cases op <;> decide

theorem Opcode.byte_of_ofByte {b : BitVec 8} {op : Opcode} (h : Opcode.ofByte b = some op) : op.byte = b := by
  unfold Opcode.ofByte at h
  repeat' split at h
  all_goals first | (cases h; subst_vars; rfl) | cases h

@[simp] theorem headerOpc_header (op : Opcode) (rd rs : SlotIx) : headerOpc (header op rd rs) = op.byte := by
  revert rd rs; cases op <;> decide
@[simp] theorem headerRd_header (op : Opcode) (rd rs : SlotIx) : headerRd (header op rd rs) = rd := by
  revert rd rs; cases op <;> decide
@[simp] theorem headerRs_header (op : Opcode) (rd rs : SlotIx) : headerRs (header op rd rs) = rs := by
  revert rd rs; cases op <;> decide
@[simp] theorem headerRsv_header (op : Opcode) (rd rs : SlotIx) : headerRsv (header op rd rs) = 0#16 := by
  revert rd rs; cases op <;> decide

/-- A header is made of its four fields (R50): no bit is read twice or lost. -/
theorem header_of_fields (h : Word) :
    ((headerRsv h ++ headerRs h) ++ (headerRd h ++ headerOpc h) : BitVec (16 + 4 + (4 + 8))) = h := by
  apply BitVec.eq_of_getElem_eq
  intro i hi
  simp only [headerRsv, headerRs, headerRd, headerOpc, BitVec.getElem_append, BitVec.getElem_extractLsb']
  have e : ∀ j, j = i → h.getLsbD j = h[i] := by intro j hj; subst hj; exact BitVec.getLsbD_eq_getElem hi
  split <;> split <;> exact e _ (by omega)

/-- A header with RSV = 0 that names an operation is the header of that operation and its slot fields. -/
theorem header_of_decode {h : Word} {op : Opcode} (hr : headerRsv h = 0#16) (ho : Opcode.ofByte (headerOpc h) = some op) :
    header op (headerRd h) (headerRs h) = h := by
  have := header_of_fields h
  rw [hr, ← Opcode.byte_of_ofByte ho] at this
  exact this

/-- All that the slot tests can do. -/
theorem checkSlots_ok_iff {nbuf : Nat} {i j : Instr} :
    checkSlots nbuf i = .ok j ↔ i = j ∧ i.wellFormed nbuf = true := by
  unfold checkSlots Instr.wellFormed
  cases i.slotsExist nbuf <;> cases i.slotsDiffer <;> simp

theorem checkSlots_of_wf {nbuf : Nat} {i : Instr} (h : i.wellFormed nbuf = true) : checkSlots nbuf i = .ok i :=
  checkSlots_ok_iff.2 ⟨rfl, h⟩

end Sys2Proof
end

