-- ==== Sys2Proof/Laws/Exec.lean ====
section
/-! SUPPORT. What each command can do, said once: one inversion lemma per meaning, and one for exec. -/

namespace Sys2Proof.Machine

variable {s t : State}

theorem next_inj {a b : State} (h : (Host.Outcome.next a : Result) = .next b) : b = a := by cases h; rfl

/-- The slot a command's error empties, if it is legal (R118): its destination when it produces a buffer. -/
def errorSlot (i : Instr) : Option SlotIx := if i.producesBuffer then i.rd? else none

/-- An illegal command ends with IllegalCommand, a legal one runs. -/
theorem ifLegal_cases {i : Instr} {run : State} (h : ifLegal i s run = .next t) :
    (i.wellFormed s.nbuf = false ∧ t = s.illegal) ∨ (i.wellFormed s.nbuf = true ∧ t = run) := by
  rw [ifLegal_eq] at h
  cases hw : i.wellFormed s.nbuf with
  | false => exact .inl ⟨rfl, by simpa [hw] using next_inj h⟩
  | true => exact .inr ⟨rfl, by simpa [hw] using next_inj h⟩

theorem store_cases (s : State) (rd : SlotIx) (r : Except ErrKind Buf) :
    (∃ b, r = .ok b ∧ s.store rd r = (s.setSlot rd (.buf b)).complete [] []) ∨
      (∃ e, r = .error e ∧ s.store rd r = s.raise e (some rd)) := by
  cases r with
  | ok b => exact .inl ⟨b, rfl, rfl⟩
  | error e => exact .inr ⟨e, rfl, rfl⟩

/-- All that PB_CREATE can do (R73). -/
theorem execPbCreate_cases {rd : SlotIx} {w h : Word} (H : execPbCreate rd w h s = .next t) :
    ((Instr.pbCreate rd w h).wellFormed s.nbuf = false ∧ t = s.illegal) ∨
      ((Instr.pbCreate rd w h).wellFormed s.nbuf = true ∧
        ((∃ b, pbCreate s.pbCap (s32 w) (s32 h) = .ok b ∧ t = (s.setSlot rd (.buf b)).complete [] []) ∨
          (∃ e, pbCreate s.pbCap (s32 w) (s32 h) = .error e ∧ t = s.raise e (some rd)))) := by
  rcases ifLegal_cases H with ⟨hw, rfl⟩ | ⟨hw, rfl⟩
  · exact .inl ⟨hw, rfl⟩
  · exact .inr ⟨hw, store_cases _ _ _⟩

/-- All that PB_GET can do (R74). -/
theorem execPbGet_cases {rs : SlotIx} {x y : Word} (H : execPbGet rs x y s = .next t) :
    ((Instr.pbGet rs x y).wellFormed s.nbuf = false ∧ t = s.illegal) ∨
      ((Instr.pbGet rs x y).wellFormed s.nbuf = true ∧
        ((∃ b, s.slot rs = .buf b ∧ t = s.complete
            [(pbGet b (s32 x) (s32 y)).r, (pbGet b (s32 x) (s32 y)).g, (pbGet b (s32 x) (s32 y)).b] []) ∨
          (s.slot rs = .empty ∧ t = s.raise .emptyBuffer none))) := by
  rcases ifLegal_cases H with ⟨hw, rfl⟩ | ⟨hw, rfl⟩
  · exact .inl ⟨hw, rfl⟩
  · exact .inr ⟨hw, withBuffer_cases _ _ _ _⟩

/-- All that PB_SET can do (R75). -/
theorem execPbSet_cases {rd : SlotIx} {x y r g b : Word} (H : execPbSet rd x y r g b s = .next t) :
    ((Instr.pbSet rd x y r g b).wellFormed s.nbuf = false ∧ t = s.illegal) ∨
      ((Instr.pbSet rd x y r g b).wellFormed s.nbuf = true ∧
        ((∃ o, s.slot rd = .buf o ∧ inBounds o (s32 x) (s32 y) = true ∧ t =
            (s.setSlot rd (.buf (pxWrite o (s32 x).toNat (s32 y).toNat ⟨r, g, b⟩))).complete [] []) ∨
          (∃ o, s.slot rd = .buf o ∧ inBounds o (s32 x) (s32 y) = false ∧ t = s.raise .outOfBounds none) ∨
          (s.slot rd = .empty ∧ t = s.raise .emptyBuffer none))) := by
  rcases ifLegal_cases H with ⟨hw, rfl⟩ | ⟨hw, rfl⟩
  · exact .inl ⟨hw, rfl⟩
  · refine .inr ⟨hw, ?_⟩
    rcases withBuffer_cases s rd none (fun old => if inBounds old (s32 x) (s32 y) then
      (s.setSlot rd (.buf (pxWrite old (s32 x).toNat (s32 y).toNat ⟨r, g, b⟩))).complete [] []
      else s.raise .outOfBounds none) with ⟨o, ho, e⟩ | ⟨he, e⟩
    · rw [e]
      cases hb : inBounds o (s32 x) (s32 y) with
      | true => exact .inl ⟨o, ho, hb, by simp⟩
      | false => exact .inr (.inl ⟨o, ho, hb, by simp⟩)
    · exact .inr (.inr ⟨he, e⟩)

/-- All that PB_WIDTH can do (R76). -/
theorem execPbWidth_cases {rs : SlotIx} (H : execPbWidth rs s = .next t) :
    ((Instr.pbWidth rs).wellFormed s.nbuf = false ∧ t = s.illegal) ∨
      ((Instr.pbWidth rs).wellFormed s.nbuf = true ∧
        ((∃ b, s.slot rs = .buf b ∧ t = s.complete [BitVec.ofNat 32 b.width] []) ∨
          (s.slot rs = .empty ∧ t = s.raise .emptyBuffer none))) := by
  rcases ifLegal_cases H with ⟨hw, rfl⟩ | ⟨hw, rfl⟩
  · exact .inl ⟨hw, rfl⟩
  · exact .inr ⟨hw, withBuffer_cases _ _ _ _⟩

/-- All that PB_HEIGHT can do (R77). -/
theorem execPbHeight_cases {rs : SlotIx} (H : execPbHeight rs s = .next t) :
    ((Instr.pbHeight rs).wellFormed s.nbuf = false ∧ t = s.illegal) ∨
      ((Instr.pbHeight rs).wellFormed s.nbuf = true ∧
        ((∃ b, s.slot rs = .buf b ∧ t = s.complete [BitVec.ofNat 32 b.height] []) ∨
          (s.slot rs = .empty ∧ t = s.raise .emptyBuffer none))) := by
  rcases ifLegal_cases H with ⟨hw, rfl⟩ | ⟨hw, rfl⟩
  · exact .inl ⟨hw, rfl⟩
  · exact .inr ⟨hw, withBuffer_cases _ _ _ _⟩

/-- All that BMP_DECODE can do (R85). -/
theorem execBmpDecode_cases {rd : SlotIx} (H : execBmpDecode rd s = .next t) :
    ((Instr.bmpDecode rd).wellFormed s.nbuf = false ∧ t = s.illegal) ∨
      ((Instr.bmpDecode rd).wellFormed s.nbuf = true ∧
        ((∃ b, decodeBmp s.pbCap s.src = .ok b ∧ t = (s.setSlot rd (.buf b)).complete [] []) ∨
          (∃ e, decodeBmp s.pbCap s.src = .error e ∧ t = s.raise e (some rd)))) := by
  rcases ifLegal_cases H with ⟨hw, rfl⟩ | ⟨hw, rfl⟩
  · exact .inl ⟨hw, rfl⟩
  · exact .inr ⟨hw, store_cases _ _ _⟩

/-- All that BMP_ENCODE can do (R90). -/
theorem execBmpEncode_cases {rs : SlotIx} (H : execBmpEncode rs s = .next t) :
    ((Instr.bmpEncode rs).wellFormed s.nbuf = false ∧ t = s.illegal) ∨
      ((Instr.bmpEncode rs).wellFormed s.nbuf = true ∧
        ((∃ b, s.slot rs = .buf b ∧ s.snkOk = true ∧ t = s.complete [] (encodeBmp b)) ∨
          (∃ b, s.slot rs = .buf b ∧ s.snkOk = false ∧ t = s.raise .fileNotFound none) ∨
          (s.slot rs = .empty ∧ t = s.raise .emptyBuffer none))) := by
  rcases ifLegal_cases H with ⟨hw, rfl⟩ | ⟨hw, rfl⟩
  · exact .inl ⟨hw, rfl⟩
  · refine .inr ⟨hw, ?_⟩
    rcases withBuffer_cases s rs none (fun b => if s.snkOk then s.complete [] (encodeBmp b)
      else s.raise .fileNotFound none) with ⟨b, hb, e⟩ | ⟨he, e⟩
    · rw [e]
      cases hk : s.snkOk with
      | true => exact .inl ⟨b, hb, rfl, by simp⟩
      | false => exact .inr (.inl ⟨b, hb, rfl, by simp⟩)
    · exact .inr (.inr ⟨he, e⟩)

/-- All that CONV_APPLY can do (R102). -/
theorem execConvApply_cases {rd rs : SlotIx} {k : List Word} (H : execConvApply rd rs k s = .next t) :
    ((Instr.convApply rd rs k).wellFormed s.nbuf = false ∧ t = s.illegal) ∨
      ((Instr.convApply rd rs k).wellFormed s.nbuf = true ∧
        ((∃ b d, s.slot rs = .buf b ∧ convBuffer s.pbCap s.draws b k = .ok d ∧
            t = ((s.drawn (convDraws b k)).setSlot rd (.buf d)).complete [] []) ∨
          (∃ b e, s.slot rs = .buf b ∧ convBuffer s.pbCap s.draws b k = .error e ∧ t = s.raise e (some rd)) ∨
          (s.slot rs = .empty ∧ t = s.raise .emptyBuffer (some rd)))) := by
  rcases ifLegal_cases H with ⟨hw, rfl⟩ | ⟨hw, rfl⟩
  · exact .inl ⟨hw, rfl⟩
  · refine .inr ⟨hw, ?_⟩
    cases hs : s.slot rs with
    | empty => exact .inr (.inr ⟨rfl, withBuffer_empty hs _ _⟩)
    | buf b =>
      rw [withBuffer_buf hs]
      cases hc : convBuffer s.pbCap s.draws b k with
      | ok d => exact .inl ⟨b, d, rfl, hc, by simp⟩
      | error e => exact .inr (.inl ⟨b, e, rfl, hc, by simp⟩)

/-- What a command's success is, whatever the command: the codes and the response of R117, with at most the destination
slot and the free-value counter changed. -/
def Succeeds (i : Instr) (s t : State) : Prop :=
  ∃ (pb : List Slot) (n : Nat) (words : List Word) (snk : List Byte),
    t = { s with pb := pb, draws := n, status := codeOk, outbox := s.outbox ++ [⟨statusWord codeOk :: words, snk⟩] } ∧
      (pb = s.pb ∨ ∃ rd v, i.rd? = some rd ∧ pb = s.pb.set rd.toNat v)

/-- All that a command can do: an illegal one ends with IllegalCommand; a legal one succeeds, or raises an error that
empties at most its destination. -/
theorem exec_cases (i : Instr) (s : State) : ∃ t, exec i s = .next t ∧
    ((i.wellFormed s.nbuf = false ∧ t = s.illegal) ∨
      (i.wellFormed s.nbuf = true ∧ (Succeeds i s t ∨ ∃ e, t = s.raise e (errorSlot i)))) := by
  have ok : ∀ (j : Instr) (run : State), ∃ t, ifLegal j s run = .next t := fun j run => ⟨_, ifLegal_eq j s run⟩
  have same : ∀ (j : Instr) (words : List Word) (snk : List Byte), Succeeds j s (s.complete words snk) :=
    fun j words snk => ⟨s.pb, s.draws, words, snk, rfl, .inl rfl⟩
  have wrote : ∀ (j : Instr) (rd : SlotIx) (v : Slot), j.rd? = some rd →
      Succeeds j s ((s.setSlot rd v).complete [] []) :=
    fun j rd v h => ⟨_, s.draws, [], [], rfl, .inr ⟨rd, v, h, rfl⟩⟩
  cases i with
  | pbCreate rd w h =>
    obtain ⟨t, ht⟩ := ok (.pbCreate rd w h) _
    refine ⟨t, ht, ?_⟩
    rcases execPbCreate_cases ht with h1 | ⟨hw, ⟨b, -, rfl⟩ | ⟨e, -, rfl⟩⟩
    · exact .inl h1
    · exact .inr ⟨hw, .inl (wrote _ _ _ rfl)⟩
    · exact .inr ⟨hw, .inr ⟨e, rfl⟩⟩
  | pbGet rs x y =>
    obtain ⟨t, ht⟩ := ok (.pbGet rs x y) _
    refine ⟨t, ht, ?_⟩
    rcases execPbGet_cases ht with h1 | ⟨hw, ⟨b, -, rfl⟩ | ⟨-, rfl⟩⟩
    · exact .inl h1
    · exact .inr ⟨hw, .inl (same _ _ _)⟩
    · exact .inr ⟨hw, .inr ⟨_, rfl⟩⟩
  | pbSet rd x y r g b =>
    obtain ⟨t, ht⟩ := ok (.pbSet rd x y r g b) _
    refine ⟨t, ht, ?_⟩
    rcases execPbSet_cases ht with h1 | ⟨hw, ⟨o, -, -, rfl⟩ | ⟨o, -, -, rfl⟩ | ⟨-, rfl⟩⟩
    · exact .inl h1
    · exact .inr ⟨hw, .inl (wrote _ _ _ rfl)⟩
    · exact .inr ⟨hw, .inr ⟨_, rfl⟩⟩
    · exact .inr ⟨hw, .inr ⟨_, rfl⟩⟩
  | pbWidth rs =>
    obtain ⟨t, ht⟩ := ok (.pbWidth rs) _
    refine ⟨t, ht, ?_⟩
    rcases execPbWidth_cases ht with h1 | ⟨hw, ⟨b, -, rfl⟩ | ⟨-, rfl⟩⟩
    · exact .inl h1
    · exact .inr ⟨hw, .inl (same _ _ _)⟩
    · exact .inr ⟨hw, .inr ⟨_, rfl⟩⟩
  | pbHeight rs =>
    obtain ⟨t, ht⟩ := ok (.pbHeight rs) _
    refine ⟨t, ht, ?_⟩
    rcases execPbHeight_cases ht with h1 | ⟨hw, ⟨b, -, rfl⟩ | ⟨-, rfl⟩⟩
    · exact .inl h1
    · exact .inr ⟨hw, .inl (same _ _ _)⟩
    · exact .inr ⟨hw, .inr ⟨_, rfl⟩⟩
  | bmpDecode rd =>
    obtain ⟨t, ht⟩ := ok (.bmpDecode rd) _
    refine ⟨t, ht, ?_⟩
    rcases execBmpDecode_cases ht with h1 | ⟨hw, ⟨b, -, rfl⟩ | ⟨e, -, rfl⟩⟩
    · exact .inl h1
    · exact .inr ⟨hw, .inl (wrote _ _ _ rfl)⟩
    · exact .inr ⟨hw, .inr ⟨e, rfl⟩⟩
  | bmpEncode rs =>
    obtain ⟨t, ht⟩ := ok (.bmpEncode rs) _
    refine ⟨t, ht, ?_⟩
    rcases execBmpEncode_cases ht with h1 | ⟨hw, ⟨b, -, -, rfl⟩ | ⟨b, -, -, rfl⟩ | ⟨-, rfl⟩⟩
    · exact .inl h1
    · exact .inr ⟨hw, .inl (same _ _ _)⟩
    · exact .inr ⟨hw, .inr ⟨_, rfl⟩⟩
    · exact .inr ⟨hw, .inr ⟨_, rfl⟩⟩
  | convApply rd rs k =>
    obtain ⟨t, ht⟩ := ok (.convApply rd rs k) _
    refine ⟨t, ht, ?_⟩
    rcases execConvApply_cases ht with h1 | ⟨hw, ⟨b, d, -, -, rfl⟩ | ⟨b, e, -, -, rfl⟩ | ⟨-, rfl⟩⟩
    · exact .inl h1
    · exact .inr ⟨hw, .inl ⟨_, _, [], [], rfl, .inr ⟨rd, _, rfl, rfl⟩⟩⟩
    · exact .inr ⟨hw, .inr ⟨_, rfl⟩⟩
    · exact .inr ⟨hw, .inr ⟨_, rfl⟩⟩

end Sys2Proof.Machine
end

