-- ==== Sys2Proof/Laws/Memory.lean ====
section
/-! SUPPORT. Every command and every step keeps the pixel memory's form (R16), with the inversion of a step. -/

namespace Sys2Proof.Machine

/-- The elements of a successful `collect` have the property every answer has. -/
theorem collect_forall {ε α β : Type} {f : α → Except ε β} {p : β → Prop} {as : List α} {bs : List β}
    (h : collect f as = .ok bs) (hp : ∀ a b, f a = .ok b → p b) : ∀ b ∈ bs, p b := by
  induction as generalizing bs with
  | nil => cases h; simp
  | cons a as ih =>
    unfold collect at h
    cases ha : f a with
    | error e => rw [ha] at h; cases h
    | ok b =>
      rw [ha] at h
      cases hs : collect f as with
      | error e => rw [hs] at h; cases h
      | ok cs =>
        rw [hs] at h
        cases h
        simpa using ⟨hp a b ha, ih hs⟩

theorem collect_length {ε α β : Type} {f : α → Except ε β} {as : List α} {bs : List β}
    (h : collect f as = .ok bs) : bs.length = as.length := by
  induction as generalizing bs with
  | nil => cases h; rfl
  | cons a as ih =>
    unfold collect at h
    cases ha : f a with
    | error e => rw [ha] at h; cases h
    | ok b =>
      rw [ha] at h
      cases hs : collect f as with
      | error e => rw [hs] at h; cases h
      | ok cs =>
        rw [hs] at h
        cases h
        simp [ih hs]

theorem decodeRow_length {src : List Byte} {w y : Nat} {row : List Color} (h : decodeRow src w y = .ok row) :
    row.length = w := by
  unfold decodeRow at h
  split at h
  · cases h
  · rename_i r hr
    split at h
    · cases h
    · cases h
      simpa using collect_length hr

theorem decodeRows_length {src : List Byte} {w h : Nat} {px : List Color} (H : decodeRows src w h = .ok px) :
    px.length = w * h := by
  unfold decodeRows at H
  split at H
  · cases H
  · rename_i rows hr
    cases H
    have hl : ∀ r ∈ rows, r.length = w := collect_forall hr fun _ _ h => decodeRow_length h
    have hn : rows.length = h := by simpa using collect_length hr
    rw [List.length_flatten, List.map_congr_left (g := fun _ => w) hl]
    simp [hn, Nat.mul_comm]

/-- A decoded image is a well-formed buffer (R16). -/
theorem decodeBmp_wf {cap : Nat} {src : Option (List Byte)} {b : Buf} (h : decodeBmp cap src = .ok b) :
    b.wf cap = true := by
  unfold decodeBmp decodeStream decodeImage at h
  split at h
  · cases h
  split at h
  · cases h
  split at h
  · cases h
  split at h
  · cases h
  split at h
  · cases h
  rename_i b' hb
  have w := wf_of_pbCreate (s32_lt _) (s32_lt _) hb
  split at h
  · cases h
  rename_i px hpx
  cases h
  rw [Buf.wf_iff] at w ⊢
  simp [decodeRows_length hpx, w]

/-- The result of a convolution of a well-formed buffer is well-formed, and of its size (R102). -/
theorem convBuffer_wf {cap d : Nat} {b r : Buf} {k : List Word} (hb : b.wf cap = true)
    (h : convBuffer cap d b k = .ok r) : r.wf cap = true ∧ r.width = b.width ∧ r.height = b.height := by
  unfold convBuffer at h
  split at h
  · cases h
  · split at h
    · cases h
    · rename_i m hm blank hbl
      rw [pbCreate_of_wf hb] at hbl
      cases hbl
      cases h
      refine ⟨?_, rfl, rfl⟩
      rw [Buf.wf_iff] at hb ⊢
      simp [convPixels, hb, Nat.mul_comm]

/-- Every command keeps the pixel memory's form. -/
theorem Memory.wf_exec {i : Instr} {s t : State} (hs : Memory.wf s.pbCap s.pb = true) (h : exec i s = .next t) :
    Memory.wf s.pbCap t.pb = true := by
  cases i with
  | pbCreate rd w h' =>
    rcases execPbCreate_cases h with ⟨_, rfl⟩ | ⟨_, ⟨b, hb, rfl⟩ | ⟨e, -, rfl⟩⟩
    · exact hs
    · exact Memory.wf_set (v := .buf b) hs (wf_of_pbCreate (s32_lt _) (s32_lt _) hb) _
    · exact Memory.wf_raise hs _ _
  | pbGet rs x y =>
    rcases execPbGet_cases h with ⟨_, rfl⟩ | ⟨_, ⟨b, -, rfl⟩ | ⟨-, rfl⟩⟩ <;> exact hs
  | pbSet rd x y r g b =>
    rcases execPbSet_cases h with ⟨_, rfl⟩ | ⟨_, ⟨o, ho, -, rfl⟩ | ⟨o, -, -, rfl⟩ | ⟨-, rfl⟩⟩
    · exact hs
    · exact Memory.wf_set (v := .buf _) hs (Buf.wf_pxWrite (Memory.wf_of_slot hs ho) _ _ _) _
    · exact hs
    · exact hs
  | pbWidth rs =>
    rcases execPbWidth_cases h with ⟨_, rfl⟩ | ⟨_, ⟨b, -, rfl⟩ | ⟨-, rfl⟩⟩ <;> exact hs
  | pbHeight rs =>
    rcases execPbHeight_cases h with ⟨_, rfl⟩ | ⟨_, ⟨b, -, rfl⟩ | ⟨-, rfl⟩⟩ <;> exact hs
  | bmpDecode rd =>
    rcases execBmpDecode_cases h with ⟨_, rfl⟩ | ⟨_, ⟨b, hb, rfl⟩ | ⟨e, -, rfl⟩⟩
    · exact hs
    · exact Memory.wf_set (v := .buf b) hs (decodeBmp_wf hb) _
    · exact Memory.wf_raise hs _ _
  | bmpEncode rs =>
    rcases execBmpEncode_cases h with ⟨_, rfl⟩ | ⟨_, ⟨b, -, -, rfl⟩ | ⟨b, -, -, rfl⟩ | ⟨-, rfl⟩⟩ <;> exact hs
  | convApply rd rs k =>
    rcases execConvApply_cases h with ⟨_, rfl⟩ | ⟨_, ⟨b, d, hb, hd, rfl⟩ | ⟨b, e, -, -, rfl⟩ | ⟨-, rfl⟩⟩
    · exact hs
    · exact Memory.wf_set (v := .buf d) hs (convBuffer_wf (Memory.wf_of_slot hs hb) hd).1 _
    · exact Memory.wf_raise hs _ _
    · exact Memory.wf_raise hs _ _

theorem State.inv_iff (s : State) : s.inv = true ↔ Config.nbufMin ≤ s.nbuf ∧ s.nbuf ≤ Config.nbufMax ∧
    Config.pbCapMin ≤ s.pbCap ∧ Memory.wf s.pbCap s.pb = true ∧ s.status.toNat ≤ 8 := by
  simp [State.inv, and_assoc]

/-- All that a step can do: nothing, a reset, an illegal packet, or one command on the presented state. -/
theorem step_cases {s t : State} (h : step s = .next t) :
    (s.inbox = [] ∧ t = s) ∨ (∃ rest, s.inbox = .reset :: rest ∧ t = s.resetBlock rest) ∨
      (∃ pk src ok rest e, s.inbox = .command pk src ok :: rest ∧ decode s.nbuf pk = .error e ∧
        t = (s.present src ok rest).illegal) ∨
      (∃ pk src ok rest i, s.inbox = .command pk src ok :: rest ∧ decode s.nbuf pk = .ok i ∧
        exec i (s.present src ok rest) = .next t) := by
  unfold step at h
  split at h
  · rename_i hi
    cases h
    exact .inl ⟨hi, rfl⟩
  · rename_i rest hi
    cases h
    exact .inr (.inl ⟨rest, hi, rfl⟩)
  · rename_i pk src ok rest hi
    unfold runPacket at h
    split at h
    · rename_i e he
      cases h
      exact .inr (.inr (.inl ⟨pk, src, ok, rest, e, hi, he, rfl⟩))
    · rename_i i hd
      exact .inr (.inr (.inr ⟨pk, src, ok, rest, i, hi, hd, h⟩))

end Sys2Proof.Machine
end

