-- ==== Sys2Proof/Laws/PerInstr.lean ====
section
/-! SUPPORT. What holds of every command as syntax, one lemma per constructor. -/

namespace Sys2Proof.Laws.Header

/-- A command's packet begins with a header that its opcode-table row selects: header AND mask = match (R55), and that
header's reserved bits are 0 (R50). -/
def Statement (i : Instr) : Prop :=
  ∃ h ops, encode i = h :: ops ∧ h &&& i.opcode.maskWord = i.opcode.matchWord ∧ headerRsv h = 0#16

theorem select (op : Opcode) (rd rs : SlotIx) (hrd : op.usesRd = false → rd = 0#4) (hrs : op.usesRs = false → rs = 0#4) :
    header op rd rs &&& op.maskWord = op.matchWord := by
  revert rd rs; cases op <;> decide

theorem pbCreate (rd : SlotIx) (w h : Word) : Statement (.pbCreate rd w h) :=
  ⟨_, _, rfl, select _ _ _ (fun e => by cases e) (fun _ => rfl), headerRsv_header _ _ _⟩
theorem pbGet (rs : SlotIx) (x y : Word) : Statement (.pbGet rs x y) :=
  ⟨_, _, rfl, select _ _ _ (fun _ => rfl) (fun e => by cases e), headerRsv_header _ _ _⟩
theorem pbSet (rd : SlotIx) (x y r g b : Word) : Statement (.pbSet rd x y r g b) :=
  ⟨_, _, rfl, select _ _ _ (fun e => by cases e) (fun _ => rfl), headerRsv_header _ _ _⟩
theorem pbWidth (rs : SlotIx) : Statement (.pbWidth rs) :=
  ⟨_, _, rfl, select _ _ _ (fun _ => rfl) (fun e => by cases e), headerRsv_header _ _ _⟩
theorem pbHeight (rs : SlotIx) : Statement (.pbHeight rs) :=
  ⟨_, _, rfl, select _ _ _ (fun _ => rfl) (fun e => by cases e), headerRsv_header _ _ _⟩
theorem bmpDecode (rd : SlotIx) : Statement (.bmpDecode rd) :=
  ⟨_, _, rfl, select _ _ _ (fun e => by cases e) (fun _ => rfl), headerRsv_header _ _ _⟩
theorem bmpEncode (rs : SlotIx) : Statement (.bmpEncode rs) :=
  ⟨_, _, rfl, select _ _ _ (fun _ => rfl) (fun e => by cases e), headerRsv_header _ _ _⟩
theorem convApply (rd rs : SlotIx) (k : List Word) : Statement (.convApply rd rs k) :=
  ⟨_, _, rfl, select _ _ _ (fun e => by cases e) (fun e => by cases e), headerRsv_header _ _ _⟩

end Sys2Proof.Laws.Header
end

