-- ==== Sys2Proof/Tests/Slice0.lean ====
section
/-! SUPPORT. The model's own tests. Expected values come from the spec's vectors (spec/95_test_vectors.md, named by their
ids) and from its rules' examples; the last part shows, for each statement with hypotheses, concrete values that meet
them. -/

namespace Sys2Proof.Tests

open Sys2Proof Sys2Proof.Machine

/-- The next state of an outcome. -/
def after : Host.Outcome State Fault Refusal → Option State
  | .next s => some s
  | _ => none

/-- The first word of the last response after an outcome. -/
def code (o : Host.Outcome State Fault Refusal) : Option Word :=
  (after o).bind fun s => s.outbox.getLast?.bind fun r => r.words.head?

/-- The words of the last response after an outcome. -/
def words (o : Host.Outcome State Fault Refusal) : List Word :=
  ((after o).bind fun s => s.outbox.getLast?.map Reply.words).getD []

/-- The bytes the last command wrote to SNK. -/
def snk (o : Host.Outcome State Fault Refusal) : List Byte :=
  ((after o).bind fun s => s.outbox.getLast?.map Reply.snk).getD []

/-- The buffer file after an outcome. -/
def slots (o : Host.Outcome State Fault Refusal) : List Slot := ((after o).map State.pb).getD []

/-- The state after reset with other contents of its two slots. -/
def holding (a b : Slot) : State := { State.reset with pb := [a, b] }

/-- The one-pixel black buffer of vectors E2, P4. -/
def dot : Slot := .buf ⟨1, 1, [Color.black]⟩

/-- Two pixels in a row: (1.0, 0, 0) and (0, 0.5, 1.0). -/
def pair : Buf := ⟨2, 1, [⟨0x3F800000, 0, 0⟩, ⟨0, 0x3F000000, 0x3F800000⟩]⟩

/-- The buffer G32 of vector PB1. -/
def g32 : Buf := ⟨3, 2,
  [⟨0x00000000, 0x3F000000, 0x3F800000⟩, ⟨0x3E000000, 0x3F000000, 0x3F600000⟩, ⟨0x3E800000, 0x3F000000, 0x3F400000⟩,
   ⟨0x3EC00000, 0x3F000000, 0x3F200000⟩, ⟨0x3F000000, 0x3F000000, 0x3F000000⟩, ⟨0x3F200000, 0x3F000000, 0x3EC00000⟩]⟩

/-- The stream of vector BC4: a 1x1 image, padding byte 99. -/
def bc4 : List Byte :=
  [0x42, 0x4D, 0x3A, 0, 0, 0, 0, 0, 0, 0, 0x36, 0, 0, 0, 0x28, 0, 0, 0, 1, 0, 0, 0, 1, 0, 0, 0, 1, 0, 0x18, 0]
    ++ List.replicate 24 0 ++ [0x10, 0x20, 0x30, 0x99]

/-- The image of vector BC4. -/
def bc4Image : Buf := ⟨1, 1, [⟨0x3E40C0C1, 0x3E008081, 0x3D808081⟩]⟩

/-! ## Packets -/

/-- WellFormed refuses a slot that does not exist (test 6 of R56), destination and source. -/
theorem test_wellFormed_refuses_missing_slot :
    (Instr.pbCreate 2 1 1).wellFormed 2 = false ∧ (Instr.pbWidth 2).wellFormed 2 = false ∧
      (Instr.convApply 1 2 []).wellFormed 2 = false ∧ (Instr.convApply 2 1 []).wellFormed 2 = false := by decide

/-- WellFormed refuses a convolution in place (test 7 of R56). -/
theorem test_wellFormed_refuses_same_slot : (Instr.convApply 1 1 [0x3F800000]).wellFormed 2 = false := by decide

/-- WellFormed accepts what R58 and R135 allow. -/
theorem test_wellFormed_accepts :
    (Instr.pbCreate 1 1 1).wellFormed 2 = true ∧ (Instr.convApply 1 0 []).wellFormed 2 = true ∧
      (Instr.pbWidth 15).wellFormed 16 = true := by decide

/-- Vector E1, one word or packet for every command. -/
theorem test_decode_pbCreate : decode 2 [0x00000101, 0x00000041, 0x00000040] = .ok (.pbCreate 1 65 64) := by decide
theorem test_decode_pbGet : decode 2 [0x00001002, 0xFFFFFFF6, 0x0000000D] = .ok (.pbGet 1 0xFFFFFFF6 13) := by decide
theorem test_decode_pbSet : decode 2 [0x00000003, 2, 1, 0x3F200000, 0x3F000000, 0x3EC00000] =
    .ok (.pbSet 0 2 1 0x3F200000 0x3F000000 0x3EC00000) := by decide
theorem test_decode_pbWidth : decode 2 [0x00001004] = .ok (.pbWidth 1) := by decide
theorem test_decode_pbHeight : decode 2 [0x00001005] = .ok (.pbHeight 1) := by decide
theorem test_decode_bmpDecode : decode 2 [0x00000110] = .ok (.bmpDecode 1) := by decide
theorem test_decode_bmpEncode : decode 2 [0x00001011] = .ok (.bmpEncode 1) := by decide
theorem test_decode_convApply : decode 2 [0x00001020, 0x3F800000] = .ok (.convApply 0 1 [0x3F800000]) := by decide

/-- Vector E2: a packet for each of the seven tests of R56, in their order. -/
theorem test_decode_illegal :
    decode 2 [] = .error .emptyPacket ∧ decode 2 [0x00010004] = .error .reservedBits ∧
      decode 2 [0x80000004] = .error .reservedBits ∧ decode 2 [0x00000000] = .error .unknownOpcode ∧
      decode 2 [0x00000021, 0x3F800000] = .error .unknownOpcode ∧
      decode 2 [0x00001001, 1, 1] = .error .unusedSlotField ∧ decode 2 [0x00000104] = .error .unusedSlotField ∧
      decode 2 [0x00000001, 1] = .error .wrongLength ∧ decode 2 [0x00000004, 0] = .error .wrongLength ∧
      decode 2 [0x00002004] = .error .noSuchSlot ∧ decode 2 [0x00002120, 0x3F800000] = .error .noSuchSlot ∧
      decode 2 [0x00000020] = .error .sameSlot := by decide

/-- E3: a convolution packet without weights is legal. -/
theorem test_decode_no_weights : decode 2 [0x00000120] = .ok (.convApply 1 0 []) := by decide

/-- The opcode table's words: operand words of zeros where the row gives no bits; the CONV_APPLY row's own word has both
slots 0 and is illegal (vector E2's last row). -/
theorem test_decodeTableWord :
    decodeTableWord 32 0x00000001 = some (.pbCreate 0 0 0) ∧ decodeTableWord 32 0x00000003 = some (.pbSet 0 0 0 0 0 0) ∧
      decodeTableWord 32 0x00001004 = some (.pbWidth 1) ∧ decodeTableWord 64 0x500000120 = some (.convApply 1 0 [5]) ∧
      decodeTableWord 32 0x00000020 = none := by decide

/-- The host's placed packet is the one the very next step runs. -/
theorem test_withFetchWord : code (step (State.reset.withFetchWord 32 0x00000004)) = some 7 := by decide

/-! ## Arithmetic -/

/-- Vector S6: 1.0 / 9.0, and the first sums of nine of it. -/
theorem test_fdiv_ninth : fdiv 0 0x3F800000 0x41100000 = 0x3DE38E39 := by decide
theorem test_fadd_ninths : fadd 0 0x3DE38E39 0x3DE38E39 = 0x3E638E39 ∧ fadd 0 0x3E638E39 0x3DE38E39 = 0x3EAAAAAB ∧
    fadd 0 0x3F638E39 0x3DE38E39 = 0x3F800000 := by decide

/-- Vectors BC3 (a subnormal product), CV5, CV7: rounded products. -/
theorem test_fmul : fmul 0 0x00000001 0x437F0000 = 0x000000FF ∧ fmul 0 0x3F7FFFFF 0x437F0000 = 0x437EFFFF ∧
    fmul 0 0x3D20A0A1 0x3DE38E39 = 0x3B8EC7AC := by decide

/-- R105: signed zeros; vector CV8: infinities and what is NaN. -/
theorem test_fadd_zero : fadd 0 0 0x80000000 = 0 ∧ fmul 0 0 0xBF800000 = 0x80000000 ∧
    fmul 0 0x7F800000 0x3F800000 = 0x7F800000 := by decide
theorem test_fmul_nan : mulVal (unpack 0x7F800000) (unpack 0) = none := by decide

/-- Vector BC2. -/
theorem test_dec : dec 0x33 = 0x3E4CCCCD ∧ dec 0x7F = 0x3EFEFEFF ∧ dec 0xAA = 0x3F2AAAAB ∧ dec 0xFE = 0x3F7EFEFF := by
  decide

/-- Vector BC3. -/
theorem test_quant : quant 0x3FC00000 = 0xFF ∧ quant 0xBE800000 = 0 ∧ quant 0x7FC00000 = 0 ∧ quant 0x3F000000 = 0x7F ∧
    quant 0x3F7FFFFF = 0xFE ∧ quant 0x80000000 = 0 := by decide

/-- Vector BC1. -/
theorem test_pad_stride : pad 1 = 1 ∧ pad 2 = 2 ∧ pad 3 = 3 ∧ pad 4 = 0 ∧ stride 5 = 16 ∧ filesize 5 7 = 166 := by decide

/-! ## The commands -/

/-- R73 (example) and vector PB6. -/
theorem test_pbCreate : slots (exec (.pbCreate 0 3 3) State.reset) = [.buf ⟨3, 3, List.replicate 9 Color.black⟩, .empty] := by
  decide
theorem test_pbCreate_errors :
    code (exec (.pbCreate 1 0x7FFFFFFF 0x7FFFFFFF) State.reset) = some 8 ∧
      code (exec (.pbCreate 1 0 100000) State.reset) = some 3 ∧
      slots (exec (.pbCreate 1 0x80000000 1) (holding dot dot)) = [dot, .empty] := by decide

/-- Vector PB2: the two axes clamp on their own. -/
theorem test_pbGet : words (exec (.pbGet 0 0xFFFFFFFF 5) (holding (.buf g32) .empty)) =
    [0, 0x3EC00000, 0x3F000000, 0x3F200000] := by decide
theorem test_pbGet_far : words (exec (.pbGet 0 0x7FFFFFFF 0x80000000) (holding (.buf g32) .empty)) =
    [0, 0x3E800000, 0x3F000000, 0x3F400000] := by decide

/-- R75 (example) on a smaller buffer; vector PB4. -/
theorem test_pbSet : slots (exec (.pbSet 0 1 0 0x7FC01234 0xFF800000 0x80000000) (holding (.buf pair) .empty)) =
    [.buf ⟨2, 1, [⟨0x3F800000, 0, 0⟩, ⟨0x7FC01234, 0xFF800000, 0x80000000⟩]⟩, .empty] := by decide
theorem test_pbSet_out : code (exec (.pbSet 0 3 0 0 0 0) (holding (.buf g32) .empty)) = some 4 ∧
    slots (exec (.pbSet 0 0 0xFFFFFFFF 0 0 0) (holding (.buf g32) .empty)) = [.buf g32, .empty] := by decide

/-- Vector PB3. -/
theorem test_pbWidth : words (exec (.pbWidth 0) (holding (.buf g32) .empty)) = [0, 3] := by decide
theorem test_pbHeight : words (exec (.pbHeight 0) (holding (.buf g32) .empty)) = [0, 2] := by decide

/-- Vector BC4, and BC5: one byte short; the slot is emptied. -/
theorem test_bmpDecode : slots (exec (.bmpDecode 0) { State.reset with src := some bc4 }) = [.buf bc4Image, .empty] := by
  decide +kernel
theorem test_bmpDecode_short :
    code (exec (.bmpDecode 0) { holding dot .empty with src := some (bc4.take 57) }) = some 2 ∧
      slots (exec (.bmpDecode 0) { holding dot .empty with src := some (bc4.take 57) }) = [.empty, .empty] ∧
      code (exec (.bmpDecode 0) { holding dot .empty with src := none }) = some 1 := by decide

/-- Vectors BC4 (encoded again: padding zero) and BC9. -/
theorem test_bmpEncode : snk (exec (.bmpEncode 0) { holding (.buf bc4Image) .empty with snkOk := true }) =
    bc4.take 57 ++ [0] := by decide
theorem test_bmpEncode_closed : words (exec (.bmpEncode 0) (holding dot .empty)) = [1] ∧
    words (exec (.bmpEncode 1) (holding dot .empty)) = [7] := by decide

/-- Vector CV1, the tap at k[5]: a convolution takes the left neighbour. -/
theorem test_convApply : slots (exec (.convApply 1 0 [0, 0, 0, 0, 0, 0x3F800000, 0, 0, 0]) (holding (.buf pair) dot)) =
    [.buf pair, .buf ⟨2, 1, [⟨0x3F800000, 0, 0⟩, ⟨0x3F800000, 0, 0⟩]⟩] := by decide
theorem test_convApply_errors :
    code (exec (.convApply 1 0 [1, 1, 1, 1]) (holding dot dot)) = some 5 ∧
      code (exec (.convApply 1 0 [1, 1, 1, 1]) (holding .empty dot)) = some 7 ∧
      slots (exec (.convApply 1 0 [1, 1, 1, 1]) (holding .empty dot)) = [.empty, .empty] ∧
      slots (exec (.convApply 1 1 [1]) (holding .empty dot)) = [.empty, dot] := by decide

set_option maxRecDepth 4000 in
/-- Vector K1. -/
theorem test_kernelSide : kernelSide 81 = .ok 9 ∧ kernelSide 0 = .error .invalidKernel ∧
    kernelSide 16 = .error .invalidKernel ∧ kernelSide 101 = .error .invalidKernel ∧
    kernelSide 121 = .error .invalidKernel := by decide

/-- R131: reset between commands. -/
theorem test_reset_event : (after (step { holding dot dot with status := 4, inbox := [.reset] })).map State.pb =
    some [.empty, .empty] := by decide

/-! ## The assembler (R67) -/

theorem test_assemble : assemble "PB_GET pb1, -10, 13".toList = some [[0x00001002, 0xFFFFFFF6, 0x0000000D]] := by decide
theorem test_assemble_float : assemble "CONV_APPLY pb1, pb0, [0.2, 0f3DE38E39] ; two".toList =
    some [[0x00000120, 0x3E4CCCCD, 0x3DE38E39]] := by decide

/-- R69: the box blur is written out as nine patterns, and its name, or any other, stands for no kernel. -/
theorem test_boxBlur : (assemble
    "CONV_APPLY pb1, pb0, [0f3DE38E39,0f3DE38E39,0f3DE38E39,0f3DE38E39,0f3DE38E39,0f3DE38E39,0f3DE38E39,0f3DE38E39,0f3DE38E39]".toList)
      = some [0x00000120 :: boxBlur] := by decide +kernel
theorem test_preset_names : assembleLine "CONV_APPLY pb1, pb0, boxblur".toList = none ∧
    assembleLine "CONVOLVE pb0, pb1, [gaussian]".toList = none := by decide

/-! ## Witnesses: values that meet the hypotheses of each statement -/

/-- A state with a packet presented, SRC and SNK_OK beside it. -/
def presenting (pk : List Word) (src : Option (List Byte)) (ok : Bool) (s : State) : State :=
  { s with inbox := [.command pk src ok] }

/-- G32 in slot 0, a black pixel in slot 1. -/
def busy : State := holding (.buf g32) dot

theorem test_witness_EncodeThenDecode : (Instr.convApply 1 0 [0x3F800000]).wellFormed 2 = true ∧
    (Instr.pbSet 15 0 0 0 0 0).wellFormed 16 = true ∧ (Instr.pbGet 1 0 0).wellFormed 2 = true := by decide

theorem test_witness_DecodeThenEncode : decode 2 [0x00000120, 0x3F800000] = .ok (.convApply 1 0 [0x3F800000]) ∧
    decode 16 [0x0000F004] = .ok (.pbWidth 15) := by decide

theorem test_witness_StepResetsBlock : ({ busy with inbox := [.reset] } : State).inbox = .reset :: [] := rfl

theorem test_witness_StepRunsDecodedCommand :
    (presenting [0x00000004] none false busy).inbox = .command [0x00000004] none false :: [] ∧
      decode (presenting [0x00000004] none false busy).pb.length [0x00000004] = .ok (.pbWidth 0) := by decide

/-- A packet for each of the seven tests, the slot one past the last for test 6. -/
theorem test_witness_StepEndsIllegalPacket :
    (presenting [] none true busy).inbox = .command [] none true :: [] ∧ busy.pb.length = 2 ∧
    illegalPacket 2 [] ∧ illegalPacket 2 [0x00010004] ∧ illegalPacket 2 [0x00000006] ∧
      illegalPacket 2 [0x00001001, 1, 1] ∧ illegalPacket 2 [0x00000104] ∧ illegalPacket 2 [0x00000004, 0] ∧
      illegalPacket 2 [0x00000001, 1] ∧ illegalPacket 2 [0x00000003, 0, 0, 0, 0] ∧
      illegalPacket 2 [0x00000201, 1, 1] ∧ illegalPacket 2 [0x00002004] ∧ illegalPacket 2 [0x00001120] :=
  ⟨rfl, rfl, .inl rfl, .inr ⟨_, _, rfl, by decide⟩, .inr ⟨_, _, rfl, by decide⟩, .inr ⟨_, _, rfl, by decide⟩,
    .inr ⟨_, _, rfl, by decide⟩, .inr ⟨_, _, rfl, by decide⟩, .inr ⟨_, _, rfl, by decide⟩,
    .inr ⟨_, _, rfl, by decide⟩, .inr ⟨_, _, rfl, by decide⟩, .inr ⟨_, _, rfl, by decide⟩,
    .inr ⟨_, _, rfl, by decide⟩⟩

theorem test_witness_IdleEngineHoldsState : busy.inbox = [] := rfl

theorem test_witness_EveryPacketIsAnswered :
    (presenting [0] none true busy).inbox = .command [0] none true :: [] := rfl

theorem test_witness_StepKeepsInvariant : ∃ t, (presenting [0x00000001, 64, 64] none true busy).inv = true ∧
    step (presenting [0x00000001, 64, 64] none true busy) = .next t := ⟨_, by decide, rfl⟩

theorem test_witness_StepKeepsParameters : ∃ t, step (presenting [0x00000004] none true busy) = .next t := ⟨_, rfl⟩

theorem test_witness_StreamsAreReadByTheirCommandsOnly : ∃ t, exec (.pbWidth 0) busy = .next t ∧
    (∀ rd, Instr.pbWidth 0 ≠ .bmpDecode rd) ∧ ∀ rs, Instr.pbWidth 0 ≠ .bmpEncode rs := ⟨_, rfl, nofun, nofun⟩

theorem test_witness_OnlyDestinationSlotChanges : ∃ t, exec (.pbCreate 1 1 1) busy = .next t ∧
    ∀ rd, (Instr.pbCreate 1 1 1).rd? = some rd → rd.toNat ≠ 0 :=
  ⟨_, rfl, fun rd h => by cases h; decide⟩

theorem test_witness_ReadersChangeNoSlot : (∃ t, exec (.pbGet 0 3 3) busy = .next t) ∧
    (∃ t, exec (.pbWidth 0) busy = .next t) ∧ (∃ t, exec (.pbHeight 1) busy = .next t) ∧
      ∃ t, exec (.bmpEncode 1) busy = .next t := ⟨⟨_, rfl⟩, ⟨_, rfl⟩, ⟨_, rfl⟩, ⟨_, rfl⟩⟩

/-- An error of a legal command with a destination, of one without, and of an illegal one. -/
theorem test_witness_CommandErrorFrame : (∃ t, exec (.pbCreate 1 0 5) busy = .next t ∧ t.status ≠ 0) ∧
    (∃ t, exec (.pbSet 0 3 0 0 0 0) busy = .next t ∧ t.status ≠ 0) ∧
      ∃ t, exec (.pbCreate 2 1 1) busy = .next t ∧ t.status ≠ 0 :=
  ⟨⟨_, rfl, by decide⟩, ⟨_, rfl, by decide⟩, ⟨_, rfl, by decide⟩⟩

theorem test_witness_ErrorCompletionExactly :
    (∃ t, step (presenting [0x00000101, 0, 5] none true busy) = .next t ∧ t.status ≠ 0) ∧
      ∃ t, step (presenting [0x00001120] none true busy) = .next t ∧ t.status ≠ 0 :=
  ⟨⟨_, rfl, by decide⟩, ⟨_, rfl, by decide⟩⟩

theorem test_witness_ErrorsOfEachCommand : ∃ t, Memory.wf busy.pbCap busy.pb = true ∧
    exec (.convApply 1 0 [0, 0, 0, 0]) busy = .next t := ⟨_, by decide, rfl⟩

/-- The slot one past the last, and a convolution in place. -/
theorem test_witness_IllegalSlotsEndCommand : (Instr.pbWidth 2).wellFormed busy.pb.length = false ∧
    (Instr.convApply 1 1 []).wellFormed busy.pb.length = false := by decide

theorem test_witness_EmptySlotEndsCommand : (holding dot .empty).pb[(1 : SlotIx).toNat]? = some .empty ∧
    (0 : SlotIx).toNat < (holding dot .empty).pb.length ∧ (0 : SlotIx) ≠ 1 := by decide

/-- Dimensions 0 and -1 (InvalidDimension), 4097 = PB_CAP + 1 (CapacityExceeded) and 4096 (success). -/
theorem test_witness_PbCreateResult : (1 : SlotIx).toNat < busy.pb.length ∧
    code (exec (.pbCreate 1 0 1) busy) = some 3 ∧ code (exec (.pbCreate 1 1 0xFFFFFFFF) busy) = some 3 ∧
    code (exec (.pbCreate 1 4097 1) busy) = some 8 ∧ (0 : Int) < (4096 : Word).toInt ∧
    (4096 : Word).toInt * (1 : Word).toInt ≤ busy.pbCap := by decide

/-- An Empty slot; a stored buffer at x = -1, 0, W - 1, W. -/
theorem test_witness_PbGetResult : (holding .empty dot).pb[(0 : SlotIx).toNat]? = some .empty ∧
    busy.pb[(0 : SlotIx).toNat]? = some (.buf g32) ∧ (Slot.buf g32).wf busy.pbCap = true ∧
    words (exec (.pbGet 0 0xFFFFFFFF 0) busy) = words (exec (.pbGet 0 0 0) busy) ∧
    words (exec (.pbGet 0 3 0) busy) = words (exec (.pbGet 0 2 0) busy) := by decide

/-- An Empty slot; a stored buffer at x = -1, 0, W - 1, W. -/
theorem test_witness_PbSetResult : (holding .empty dot).pb[(0 : SlotIx).toNat]? = some .empty ∧
    busy.pb[(0 : SlotIx).toNat]? = some (.buf g32) ∧ code (exec (.pbSet 0 0xFFFFFFFF 0 1 1 1) busy) = some 4 ∧
    code (exec (.pbSet 0 0 0 1 1 1) busy) = some 0 ∧ code (exec (.pbSet 0 2 1 1 1 1) busy) = some 0 ∧
    code (exec (.pbSet 0 3 1 1 1 1) busy) = some 4 ∧ code (exec (.pbSet 0 2 2 1 1 1) busy) = some 4 := by decide

theorem test_witness_PbWidthResult : busy.pb[(0 : SlotIx).toNat]? = some (.buf g32) ∧
    (Slot.buf g32).wf busy.pbCap = true ∧ State.reset.pb[(0 : SlotIx).toNat]? = some .empty := by decide

theorem test_witness_PbHeightResult : busy.pb[(1 : SlotIx).toNat]? = some dot ∧ dot.wf busy.pbCap = true ∧
    State.reset.pb[(1 : SlotIx).toNat]? = some .empty ∧ Slot.wf State.reset.pbCap .empty = true := by decide

/-- One past each edge, and a 1x1 buffer. -/
theorem test_witness_EdgeClampLaws : g32.wf 4096 = true ∧ pbGet g32 (-1) 1 = pbGet g32 0 1 ∧
    pbGet g32 3 1 = pbGet g32 2 1 ∧ pbGet g32 1 (-1) = pbGet g32 1 0 ∧ pbGet g32 1 2 = pbGet g32 1 1 ∧
    (Buf.mk 1 1 [Color.black]).wf 4096 = true := by decide

/-- The pixel set, and another. -/
theorem test_witness_GetAfterSet : busy.pb[(0 : SlotIx).toNat]? = some (.buf g32) ∧ g32.wf busy.pbCap = true ∧
    (∃ t, exec (.pbSet 0 2 1 7 8 9) busy = .next t ∧ t.status = 0) ∧ 0 ≤ (2 : Word).toInt ∧
    (2 : Word).toInt < g32.width ∧ (1 : Word).toInt < g32.height ∧ 0 ≤ (0 : Word).toInt ∧
    (0 : Word).toInt < g32.width :=
  ⟨by decide, by decide, ⟨_, rfl, by decide⟩, by decide, by decide, by decide, by decide, by decide⟩

theorem test_witness_ReadAfterCreate : ∃ t, exec (.pbCreate 1 2 2) busy = .next t ∧ t.status = 0 := ⟨_, rfl, by decide⟩

theorem test_witness_SizeStableBetweenProducers : ∃ t, busy.pb[(0 : SlotIx).toNat]? = some (.buf g32) ∧
    ¬((Instr.pbSet 0 0 0 1 1 1).producesBuffer = true ∧ (Instr.pbSet 0 0 0 1 1 1).rd? = some 0) ∧
    exec (.pbSet 0 0 0 1 1 1) busy = .next t := ⟨_, by decide, by decide, rfl⟩

/-- The closed form on streams at its edges: absent, 53 bytes, one byte short, whole. -/
theorem test_witness_BmpDecodeResult : (0 : SlotIx).toNat < busy.pb.length ∧ decodeOutcome 4096 none = .error 1 ∧
    decodeOutcome 4096 (some (bc4.take 53)) = .error 2 ∧
    decodeOutcome 4096 (some (bc4.take 57)) = .error 2 ∧
    decodeOutcome 0 (some bc4) = .error 8 ∧ decodeOutcome 4096 (some bc4) = .ok bc4Image := by
  decide +kernel

/-- BC4 and BC6's hostile headers with trailing bytes: they differ in ignored bytes only. -/
theorem test_witness_DecodeIgnoresOtherBytes :
    let b' := bc4.take 2 ++ [0xFF, 0xFF] ++ (bc4.drop 4).take 53 ++ [0xDE, 0xAD]
    (streamInt bc4 18).toNat = 1 ∧ (streamInt bc4 22).toNat = 1 ∧ filesize 1 1 ≤ bc4.length ∧
      filesize 1 1 ≤ b'.length ∧ b' ≠ bc4 ∧
      ∀ o ∈ List.range 60, o < 2 ∨ (18 ≤ o ∧ o < 26) ∨ (54 ≤ o ∧ o < filesize 1 1 ∧ (o - 54) % stride 1 < 3 * 1) →
        b'[o]? = bc4[o]? := by decide +kernel

theorem test_witness_BmpEncodeResult : busy.pb[(0 : SlotIx).toNat]? = some (.buf g32) ∧
    State.reset.pb[(0 : SlotIx).toNat]? = some .empty ∧ busy.snkOk = false ∧
    ({ busy with snkOk := true } : State).snkOk = true := by decide

/-- A pixel and a padding byte of a 2x1 image. -/
theorem test_witness_EncodedBytes : pair.wf 4096 = true ∧ 1 < pair.width ∧ 0 < pair.height ∧
    pair.px[0 * pair.width + 1]? = some ⟨0, 0x3F000000, 0x3F800000⟩ ∧ 1 < pad pair.width := by decide

/-- Above 1.0, 1.0 itself, below 0, NaN. -/
theorem test_witness_QuantResult : fgt 0x3FC00000 fOne = true ∧ fge 0xBE800000 0 = false ∧ fge 0x7FC00000 0 = false ∧
    fge 0x3F800000 0 = true ∧ fgt 0x3F800000 fOne = false ∧ fge 0x80000000 0 = true := by decide

theorem test_witness_QuantisationError : fge 0x3F7FFFFF 0 = true ∧ fge fOne 0x3F7FFFFF = true := by decide

theorem test_witness_DecodeOfEncode : ({ busy with snkOk := true } : State).pb[(0 : SlotIx).toNat]? = some (.buf g32) ∧
    g32.wf busy.pbCap = true ∧ (1 : SlotIx).toNat < busy.pb.length := by decide

theorem test_witness_DecodeEncodeDecode : decodeBmp 4096 (some bc4) = .ok bc4Image := by decide +kernel

theorem test_witness_KernelReversal : [1, 2, 3, 4, 5, 6, 7, 8, (9 : Word)].length = 3 * 3 ∧
    (reversed [1, 2, 3, 4, 5, 6, 7, 8, 9])[0 * 3 + 1]? = some 8 := by decide

/-- The five clauses: in place, Empty source, lengths 0 and 4, lengths 1 and 9. -/
theorem test_witness_ConvApplyResult : busy.pb[(0 : SlotIx).toNat]? = some (.buf g32) ∧
    (Slot.buf g32).wf busy.pbCap = true ∧ (1 : SlotIx).toNat < busy.pb.length ∧ (1 : SlotIx) ≠ 0 ∧
    (holding .empty dot).pb[(0 : SlotIx).toNat]? = some .empty ∧ ([] : List Word).length ∉ legalLengths ∧
    [0, 0, 0, (0 : Word)].length ∉ legalLengths ∧ [(0x3F800000 : Word)].length ∈ legalLengths ∧
    [(0x3F800000 : Word)].length = 1 * 1 ∧ (List.replicate 9 (0 : Word)).length = 3 * 3 ∧
    (List.replicate 9 (0 : Word)).length ∈ legalLengths := by decide

/-- Two machines with other counters and other second slots. -/
theorem test_witness_ConvDeterministicUpToNan : ∃ t t', busy.pb[(0 : SlotIx).toNat]? = some (.buf g32) ∧
    ({ holding (.buf g32) .empty with draws := 5, status := 3 } : State).pb[(0 : SlotIx).toNat]? = some (.buf g32) ∧
    g32.wf busy.pbCap = true ∧ exec (.convApply 1 0 [0x40000000]) busy = .next t ∧
    exec (.convApply 1 0 [0x40000000]) { holding (.buf g32) .empty with draws := 5, status := 3 } = .next t' ∧
    t.status = 0 ∧ t'.status = 0 := ⟨_, _, by decide, by decide, by decide, rfl, rfl, by decide, by decide⟩

/-- A NaN weight, a NaN channel under a clamped sample, and an infinite channel under a zero weight (vector CV8). -/
theorem test_witness_NanTermGivesNan : 0 < 1 * 1 ∧ isNan (weightAt (reversed [0x7FC00000]) 0) = true ∧
    nanProduct (sample ⟨1, 1, [⟨0x7F800001, 0, 0⟩]⟩ 3 0 0 8).r 0x3F800000 = true ∧
    nanProduct (sample ⟨1, 1, [⟨0, 0x7F800000, 0⟩]⟩ 3 0 0 8).g (weightAt (reversed [0x80000000]) 0) = true ∧
    nanProduct (sample ⟨1, 1, [⟨0, 0, 0xFF800000⟩]⟩ 3 0 0 8).b 0 = true ∧
    nanProduct (sample ⟨1, 1, [⟨0, 0, 0⟩]⟩ 3 0 0 8).b 0x7F800000 = true := by decide

theorem test_witness_ChannelsAreIndependent :
    let b' : Buf := ⟨2, 1, [⟨0x3F800000, 7, 8⟩, ⟨0, 9, 9⟩]⟩
    b'.width = pair.width ∧ b'.height = pair.height ∧ b'.px.map Color.r = pair.px.map Color.r ∧ b' ≠ pair := by decide

theorem test_witness_IdentityKernel : ∃ r, pair.wf 4096 = true ∧ convBuffer 4096 0 pair [0x3F800000] = .ok r :=
  ⟨_, by decide, rfl⟩

theorem test_witness_IdentityKernelOfDecodedImage : ∃ t u,
    exec (.bmpDecode 0) { State.reset with src := some bc4 } = .next t ∧ t.status = 0 ∧
      exec (.convApply 1 0 [0x3F800000]) t = .next u ∧ u.status = 0 :=
  ⟨_, _, rfl, by decide +kernel, rfl, by decide +kernel⟩

theorem test_witness_ConstantImageStaysConstant : (Buf.mk 2 1 [⟨1, 2, 3⟩, ⟨1, 2, 3⟩]).wf 4096 = true ∧
    ∀ p ∈ (Buf.mk 2 1 [⟨1, 2, 3⟩, ⟨1, 2, 3⟩]).px, p = ⟨1, 2, 3⟩ := by decide

/-- The threshold itself, the largest finite value plus 2^103, and the next sum below it. -/
theorem test_witness_FaddRoundsToNearest : isFinite 0x7F7FFFFF = true ∧ isFinite 0x73000000 = true ∧
    |fValue 0x7F7FFFFF + fValue 0x73000000| = 2 ^ 128 - 2 ^ 103 ∧ isFinite 0x72FFFFFF = true ∧
    |fValue 0x7F7FFFFF + fValue 0x72FFFFFF| < 2 ^ 128 - 2 ^ 103 ∧ fadd 0 0x7F7FFFFF 0x73000000 = infOf false ∧
    fadd 0 0x7F7FFFFF 0x72FFFFFF = 0x7F7FFFFF := by
  have h1 : unpack 0x7F7FFFFF = .fin false 0xFFFFFF 104 := by decide
  have h2 : unpack 0x73000000 = .fin false 0x800000 80 := by decide
  have h3 : unpack 0x72FFFFFF = .fin false 0xFFFFFF 79 := by decide
  refine ⟨by decide, by decide, ?_, by decide, ?_, by decide, by decide⟩
  · rw [fValue_of_unpack h1, fValue_of_unpack h2]
    norm_num [signed]
  · rw [fValue_of_unpack h1, fValue_of_unpack h3]
    norm_num [signed, abs_of_pos]

/-- Half the least subnormal; twice the largest finite value, with its sign. -/
theorem test_witness_FmulRoundsToNearest : isFinite 0x00000001 = true ∧ isFinite 0x3F000000 = true ∧
    fmul 0 0x00000001 0x3F000000 = 0 ∧ isFinite 0xFF7FFFFF = true ∧ isFinite 0x40000000 = true ∧
    2 ^ 128 - 2 ^ 103 ≤ |fValue 0xFF7FFFFF * fValue 0x40000000| ∧ fmul 0 0xFF7FFFFF 0x40000000 = infOf true := by
  have h1 : unpack 0xFF7FFFFF = .fin true 0xFFFFFF 104 := by decide
  have h2 : unpack 0x40000000 = .fin false 0x800000 (-22) := by decide
  refine ⟨by decide, by decide, by decide, by decide, by decide, ?_, by decide⟩
  rw [fValue_of_unpack h1, fValue_of_unpack h2]
  norm_num [signed]

/-- 1.0 / 9.0; the largest finite value over 0.5. -/
theorem test_witness_FdivRoundsToNearest : isFinite 0x3F800000 = true ∧ isFinite 0x41100000 = true ∧
    fValue 0x41100000 ≠ 0 ∧ isFinite (fdiv 0 0x3F800000 0x41100000) = true ∧ fValue 0x3F000000 ≠ 0 ∧
    2 ^ 128 - 2 ^ 103 ≤ |fValue 0x7F7FFFFF / fValue 0x3F000000| ∧ fdiv 0 0x7F7FFFFF 0x3F000000 = infOf false := by
  have h : unpack 0x41100000 = .fin false 0x900000 (-20) := by decide
  have h1 : unpack 0x7F7FFFFF = .fin false 0xFFFFFF 104 := by decide
  have h2 : unpack 0x3F000000 = .fin false 0x800000 (-24) := by decide
  refine ⟨by decide, by decide, by rw [fValue_of_unpack h]; simp [signed], by decide,
    by rw [fValue_of_unpack h2]; simp [signed], ?_, by decide⟩
  rw [fValue_of_unpack h1, fValue_of_unpack h2]
  norm_num [signed]

/-- Infinities with finite values, with each other, with zeros; a zero divisor. -/
theorem test_witness_InfiniteOperands : isInf 0x7F800000 = true ∧ isInf 0xFF800000 = true ∧
    isFinite 0x3F800000 = true ∧ fadd 0 0xFF800000 0x3F800000 = 0xFF800000 ∧
    nanProduct 0x7F800000 0x80000000 = true ∧ nanProduct 0x7F800000 0xBF800000 = false ∧
    fmul 0 0x7F800000 0xBF800000 = infOf true ∧ isZero 0 = true ∧ isZero 0x80000000 = true ∧
    isZero 0x3F800000 = false ∧ fdiv 0 0x3F800000 0x80000000 = infOf true ∧
    fdiv 0 0x3F800000 0xFF800000 = zeroOf true := by decide

/-- Signs differ, and are equal; +0.0 and -0.0; both -0.0. -/
theorem test_witness_SignsOfResults : isNan (fmul 0 0 0xBF800000) = false ∧ isNan (fdiv 0 0x3F800000 0) = false ∧
    isFinite 0 = true ∧ isFinite 0x80000000 = true ∧ fValue 0 + fValue 0x80000000 = 0 ∧
    fadd 0 0x80000000 0x80000000 = 0x80000000 ∧ fadd 0 0 0x80000000 = 0 := by
  have h0 : unpack 0 = .fin false 0 (-149) := by decide
  have h1 : unpack 0x80000000 = .fin true 0 (-149) := by decide
  exact ⟨by decide, by decide, by decide, by decide, by rw [fValue_of_unpack h0, fValue_of_unpack h1]; simp [signed], by decide, by decide⟩

theorem test_witness_NanOperandsGiveNan : isNan 0x7FC01234 = true ∧ isNan 0xFF800001 = true := by decide

theorem test_witness_PipelineResult : (0 : SlotIx).toNat < State.reset.pb.length ∧
    (1 : SlotIx).toNat < State.reset.pb.length ∧ (0 : SlotIx) ≠ 1 ∧
    decodeBmp State.reset.pbCap (some bc4) = .ok bc4Image ∧ [(0x3F800000 : Word)].length ∈ legalLengths := by
  decide +kernel

/-- A run that ends at its second command. -/
theorem test_witness_HostStopsAtFirstError : ∃ t,
    hostRun (present none true [.pbCreate 0 1 1, .pbWidth 1, .pbWidth 0]) State.reset = .next t ∧
      t.outbox.length = 2 := ⟨_, rfl, by decide⟩

end Sys2Proof.Tests
end

section
/-! SUPPORT and PROOFS. Every step keeps the machine's parameters and its invariant. -/

namespace Sys2Proof.Machine

/-- Neither a success nor an error completion changes the number of slots or the capacity, so no command does (R22). -/
theorem exec_keeps_parameters {i : Instr} {s t : State} (h : exec i s = .next t) :
    t.nbuf = s.nbuf ∧ t.pbCap = s.pbCap := by
  obtain ⟨u, hu, hcases⟩ := exec_cases i s
  obtain rfl : u = t := by rw [hu] at h; exact (next_inj h).symm
  rcases hcases with ⟨-, rfl⟩ | ⟨-, ⟨pb, n, words, snk, rfl, hpb⟩ | ⟨e, rfl⟩⟩
  · simp
  · rcases hpb with rfl | ⟨rd, v, -, rfl⟩ <;> simp [State.nbuf]
  · simp

/-- Every command leaves a completion code in STATUS (R21, R113). -/
theorem exec_status_le {i : Instr} {s t : State} (h : exec i s = .next t) : t.status.toNat ≤ 8 := by
  obtain ⟨u, hu, hcases⟩ := exec_cases i s
  obtain rfl : u = t := by rw [hu] at h; exact (next_inj h).symm
  rcases hcases with ⟨-, rfl⟩ | ⟨-, ⟨pb, n, words, snk, rfl, -⟩ | ⟨e, rfl⟩⟩
  · exact errCode_le _
  · exact Nat.zero_le _
  · simpa using errCode_le e

/-- Every command keeps the invariant. -/
theorem State.inv_exec {i : Instr} {s t : State} (hs : s.inv = true) (h : exec i s = .next t) : t.inv = true := by
  rw [State.inv_iff] at hs ⊢
  obtain ⟨hmin, hmax, hcap, hmem, -⟩ := hs
  obtain ⟨hn, hc⟩ := exec_keeps_parameters h
  rw [hn, hc]
  exact ⟨hmin, hmax, hcap, Memory.wf_exec hmem h, exec_status_le h⟩

/-- The invariant does not speak of what stands at the interface. -/
theorem State.inv_present {s : State} (hs : s.inv = true) (src : Option (List Byte)) (ok : Bool)
    (rest : List HostEvent) : (s.present src ok rest).inv = true := hs

theorem State.inv_illegal {s : State} (hs : s.inv = true) : s.illegal.inv = true := by
  rw [State.inv_iff] at hs ⊢
  obtain ⟨hmin, hmax, hcap, hmem, -⟩ := hs
  exact ⟨hmin, hmax, hcap, hmem, errCode_le _⟩

theorem State.inv_resetBlock {s : State} (hs : s.inv = true) (rest : List HostEvent) :
    (s.resetBlock rest).inv = true := by
  rw [State.inv_iff] at hs ⊢
  obtain ⟨hmin, hmax, hcap, -, -⟩ := hs
  rw [State.resetBlock_nbuf]
  exact ⟨hmin, hmax, hcap, Memory.wf_resetBlock _ _ _, Nat.zero_le _⟩

/-- Settles O12, by the four things a step can do. -/
theorem stepKeepsInvariant : Obligations.StepKeepsInvariant := by
  intro s t hs h
  rcases step_cases h with ⟨-, rfl⟩ | ⟨rest, -, rfl⟩ | ⟨pk, src, ok, rest, e, -, -, rfl⟩ |
    ⟨pk, src, ok, rest, i, -, -, hx⟩
  · exact hs
  · exact State.inv_resetBlock hs rest
  · exact State.inv_illegal (State.inv_present hs src ok rest)
  · exact State.inv_exec (State.inv_present hs src ok rest) hx

/-- Settles O13, by the four things a step can do. -/
theorem stepKeepsParameters : Obligations.StepKeepsParameters := by
  intro s t h
  rcases step_cases h with ⟨-, rfl⟩ | ⟨rest, -, rfl⟩ | ⟨pk, src, ok, rest, e, -, -, rfl⟩ |
    ⟨pk, src, ok, rest, i, -, -, hx⟩
  · exact ⟨rfl, rfl⟩
  · exact ⟨State.resetBlock_nbuf s rest, rfl⟩
  · exact ⟨rfl, rfl⟩
  · exact exec_keeps_parameters (s := s.present src ok rest) hx

/-- Settles O7, by the step's equation for a packet that decodes. -/
theorem stepRunsDecodedCommand : Obligations.StepRunsDecodedCommand := by
  intro s pk src ok rest i hin hdec
  have hdec' : decode (s.present src ok rest).nbuf pk = .ok i := hdec
  simp only [step, hin, runPacket, hdec']
  rfl

/-- Settles O11: the default parameters are legal and an emptied buffer file is well-formed. -/
theorem resetSatisfiesInvariant : Obligations.ResetSatisfiesInvariant :=
  (State.inv_iff _).2 ⟨by decide, by decide, by decide, Memory.wf_reset, by decide⟩

end Sys2Proof.Machine
end

section
/-! SUPPORT and PROOFS. NaNs, infinities, zeros and signs: each class of patterns is told by what the pattern stands
for, and each operation's results by the classes of its operands. -/

namespace Sys2Proof.Machine

/-! ## Classes of values -/

/-- The value is a NaN. -/
def FVal.isNan : FVal → Bool
  | .nan => true
  | .inf _ => false
  | .fin _ _ _ => false

/-- The value is an infinity. -/
def FVal.isInf : FVal → Bool
  | .nan => false
  | .inf _ => true
  | .fin _ _ _ => false

/-- The value is finite. -/
def FVal.isFin : FVal → Bool
  | .nan => false
  | .inf _ => false
  | .fin _ _ _ => true

/-- The value is a zero. -/
def FVal.isZero : FVal → Bool
  | .nan => false
  | .inf _ => false
  | .fin _ m _ => decide (m = 0)

/-- The sign of a value that is no NaN. -/
def FVal.neg : FVal → Bool
  | .nan => false
  | .inf a => a
  | .fin a _ _ => a

theorem infOf_eq_fInf (neg : Bool) : infOf neg = fInf neg := by cases neg <;> decide
theorem zeroOf_eq_fZero (neg : Bool) : zeroOf neg = fZero neg := by cases neg <;> decide
theorem unpack_fInf (neg : Bool) : unpack (fInf neg) = .inf neg := by cases neg <;> decide
theorem unpack_fZero (neg : Bool) : unpack (fZero neg) = .fin neg 0 (-149) := by cases neg <;> decide

theorem fSign_eq_neg {w : Word} (h : isNan w = false) : fSign w = (unpack w).neg := by
  have hn : unpack w ≠ .nan := fun e => by simp [(isNan_iff w).2 e] at h
  revert hn
  fun_cases unpack w <;> simp [FVal.neg]

theorem fSign_of_inf {w : Word} {neg : Bool} (h : unpack w = .inf neg) : fSign w = neg := by
  rw [fSign_eq_neg (by rw [Bool.eq_false_iff, ne_eq, isNan_iff, h]; simp), h]
  rfl

theorem fSign_of_fin {w : Word} {neg : Bool} {m : Nat} {e : Int} (h : unpack w = .fin neg m e) :
    fSign w = neg := by
  rw [fSign_eq_neg (by rw [Bool.eq_false_iff, ne_eq, isNan_iff, h]; simp), h]
  rfl

/-- Only the pattern of an infinity stands for it. -/
theorem eq_fInf_of_unpack {w : Word} {neg : Bool} (h : unpack w = .inf neg) : w = fInf neg := by
  have hn : isNan w = false := by rw [Bool.eq_false_iff, ne_eq, isNan_iff, h]; simp
  have hf : fExp w = 255 ∧ fFrac w = 0 := by
    revert h
    fun_cases unpack w <;> simp_all
  have := packMag_fields hn
  rw [fSign_of_inf h, hf.1, hf.2] at this
  exact this.symm

/-- Only the pattern of a zero stands for it. -/
theorem eq_fZero_of_unpack {w : Word} {neg : Bool} {e : Int} (h : unpack w = .fin neg 0 e) : w = fZero neg := by
  have hn : isNan w = false := by rw [Bool.eq_false_iff, ne_eq, isNan_iff, h]; simp
  have hf : fExp w = 0 ∧ fFrac w = 0 := by
    revert h
    fun_cases unpack w <;> simp_all
  have := packMag_fields hn
  rw [fSign_of_fin h, hf.1, hf.2] at this
  exact this.symm

theorem isNan_eq (w : Word) : isNan w = (unpack w).isNan := by
  rw [Bool.eq_iff_iff, isNan_iff]
  cases unpack w <;> simp [FVal.isNan]

theorem isFinite_eq (w : Word) : isFinite w = (unpack w).isFin := by
  rw [Bool.eq_iff_iff, isFinite_iff]
  cases unpack w <;> simp [FVal.isFin]

theorem isInf_iff (w : Word) : isInf w = true ↔ ∃ neg, w = fInf neg := by
  simp [isInf, show fInf false = 0x7F800000 by decide, show fInf true = 0xFF800000 by decide]

theorem isZero_iff (w : Word) : isZero w = true ↔ ∃ neg, w = fZero neg := by
  simp [isZero, show fZero false = 0 by decide, show fZero true = 0x80000000 by decide]

theorem isInf_eq (w : Word) : isInf w = (unpack w).isInf := by
  rw [Bool.eq_iff_iff, isInf_iff]
  constructor
  · rintro ⟨neg, rfl⟩
    rw [unpack_fInf]
    rfl
  · cases h : unpack w with
    | inf neg => exact fun _ => ⟨neg, eq_fInf_of_unpack h⟩
    | nan => simp [FVal.isInf]
    | fin a m e => simp [FVal.isInf]

theorem isZero_eq (w : Word) : isZero w = (unpack w).isZero := by
  rw [Bool.eq_iff_iff, isZero_iff]
  constructor
  · rintro ⟨neg, rfl⟩
    rw [unpack_fZero]
    rfl
  · cases h : unpack w with
    | nan => simp [FVal.isZero]
    | inf neg => simp [FVal.isZero]
    | fin a m e =>
      intro hm
      obtain rfl : m = 0 := by simpa [FVal.isZero] using hm
      exact ⟨a, eq_fZero_of_unpack h⟩

/-! ## NaN results -/

/-- The NaN the arithmetic delivers is quiet (R12; log entry 5). -/
theorem isQuietNan_quietNan (d : Nat) : isQuietNan (quietNan d) = true := by
  obtain ⟨neg, p, hp, h⟩ := quietNan_toNat d
  have hbit : (quietNan d).getLsbD 22 = true := by
    rw [BitVec.getLsbD, h, Nat.testBit_eq_decide_div_mod_eq, decide_eq_true_eq]
    cases neg <;> simp <;> omega
  simp [isQuietNan, isNan_quietNan, hbit]

theorem divVal_nan_left (v : FVal) : divVal .nan v = none := by cases v <;> rfl
theorem divVal_nan_right (v : FVal) : divVal v .nan = none := by cases v <;> rfl

theorem quietNan_of_none {r : Option Word} (d : Nat) (h : r = none) : isQuietNan (nanOr d r) = true := by
  subst h
  exact isQuietNan_quietNan d

/-- Settles O57: no operation answers a value for a NaN operand, and the NaN delivered is a quiet one. -/
theorem nanOperandsGiveNan : Obligations.NanOperandsGiveNan := by
  intro d a b h
  rcases h with h | h
  · have hu := (isNan_iff a).1 h
    refine ⟨quietNan_of_none d ?_, quietNan_of_none d ?_, quietNan_of_none d ?_⟩ <;> rw [hu]
    · exact addVal_nan_left _
    · exact mulVal_nan_left _
    · exact divVal_nan_left _
  · have hu := (isNan_iff b).1 h
    refine ⟨quietNan_of_none d ?_, quietNan_of_none d ?_, quietNan_of_none d ?_⟩ <;> rw [hu]
    · exact addVal_nan_right _
    · exact mulVal_nan_right _
    · exact divVal_nan_right _

/-! ## Signs of products and quotients -/

theorem roundPack_eq_packMag (neg : Bool) (n : Nat) (k : Int) : ∃ mag, roundPack neg n k = packMag neg mag := by
  unfold roundPack
  split
  · exact ⟨0, rfl⟩
  · exact ⟨_, rfl⟩

/-- A product that is no NaN has the operands' signs combined. -/
theorem mulVal_eq_packMag {x y : FVal} {w : Word} (h : mulVal x y = some w) :
    ∃ mag, w = packMag (x.neg != y.neg) mag := by
  revert h
  fun_cases mulVal x y <;> simp only [Option.some.injEq, reduceCtorEq, false_implies] <;> rintro rfl
  case case8 => exact roundPack_eq_packMag _ _ _
  all_goals exact ⟨_, rfl⟩

/-- A quotient that is no NaN has the operands' signs combined. -/
theorem divVal_eq_packMag {x y : FVal} {w : Word} (h : divVal x y = some w) :
    ∃ mag, w = packMag (x.neg != y.neg) mag := by
  revert h
  fun_cases divVal x y <;> simp only [Option.some.injEq, reduceCtorEq, false_implies] <;> rintro rfl
  case case8 => exact roundPack_eq_packMag _ _ _
  all_goals exact ⟨_, rfl⟩

/-- A packed result is never a NaN, so a result is one exactly when the operation answers no value. -/
theorem isNan_nanOr {r : Option Word} (d : Nat) (h : ∀ w, r = some w → ∃ neg mag, w = packMag neg mag) :
    isNan (nanOr d r) = r.isNone := by
  rcases nanOr_cases d r with ⟨rfl, hn⟩ | ⟨w, rfl, hw⟩
  · exact hn
  · obtain ⟨neg, mag, rfl⟩ := h w rfl
    rw [hw]
    exact isNan_packMag neg mag

theorem isNan_fmul (d : Nat) (a b : Word) : isNan (fmul d a b) = (mulVal (unpack a) (unpack b)).isNone :=
  isNan_nanOr d fun _ h => ⟨_, mulVal_eq_packMag h⟩

theorem isNan_fdiv (d : Nat) (a b : Word) : isNan (fdiv d a b) = (divVal (unpack a) (unpack b)).isNone :=
  isNan_nanOr d fun _ h => ⟨_, divVal_eq_packMag h⟩

/-- A product that is a value has operands that are. -/
theorem not_isNan_of_fmul {d : Nat} {a b : Word} (h : isNan (fmul d a b) = false) :
    isNan a = false ∧ isNan b = false := by
  rw [isNan_fmul] at h
  rw [isNan_eq, isNan_eq]
  revert h
  cases unpack a <;> cases unpack b <;> simp [mulVal, FVal.isNan]

/-- A quotient that is a value has operands that are. -/
theorem not_isNan_of_fdiv {d : Nat} {a b : Word} (h : isNan (fdiv d a b) = false) :
    isNan a = false ∧ isNan b = false := by
  rw [isNan_fdiv] at h
  rw [isNan_eq, isNan_eq]
  revert h
  cases unpack a <;> cases unpack b <;> simp [divVal, FVal.isNan]

theorem fSign_fmul {d : Nat} {a b : Word} (h : isNan (fmul d a b) = false) :
    fSign (fmul d a b) = (fSign a != fSign b) := by
  obtain ⟨ha, hb⟩ := not_isNan_of_fmul h
  rw [isNan_fmul, Option.isNone_eq_false_iff, Option.isSome_iff_exists] at h
  obtain ⟨w, hw⟩ := h
  obtain ⟨mag, rfl⟩ := mulVal_eq_packMag hw
  rw [fSign_eq_neg ha, fSign_eq_neg hb, fmul, hw]
  exact fSign_packMag _ _

theorem fSign_fdiv {d : Nat} {a b : Word} (h : isNan (fdiv d a b) = false) :
    fSign (fdiv d a b) = (fSign a != fSign b) := by
  obtain ⟨ha, hb⟩ := not_isNan_of_fdiv h
  rw [isNan_fdiv, Option.isNone_eq_false_iff, Option.isSome_iff_exists] at h
  obtain ⟨w, hw⟩ := h
  obtain ⟨mag, rfl⟩ := divVal_eq_packMag hw
  rw [fSign_eq_neg ha, fSign_eq_neg hb, fdiv, hw]
  exact fSign_packMag _ _

/-! ## Infinite operands and zero divisors -/

/-- An infinity absorbs finite values and itself, on either side. -/
theorem addVal_inf {x : FVal} {neg : Bool} (h : x.isFin = true ∨ x = .inf neg) :
    addVal (.inf neg) x = some (fInf neg) ∧ addVal x (.inf neg) = some (fInf neg) := by
  rcases h with h | rfl
  · cases x with
    | nan => cases h
    | inf b => cases h
    | fin b m e => exact ⟨rfl, rfl⟩
  · simp [addVal]

/-- The operand pairs without a product. -/
theorem mulVal_isNone (x y : FVal) : (mulVal x y).isNone =
    (x.isNan || y.isNan || (x.isInf && y.isZero) || (x.isZero && y.isInf)) := by
  fun_cases mulVal x y <;> simp_all [FVal.isNan, FVal.isInf, FVal.isZero]

theorem mulVal_inf {x y : FVal} (h : x.isInf = true ∨ y.isInf = true) (hn : (mulVal x y).isNone = false) :
    mulVal x y = some (fInf (x.neg != y.neg)) := by
  revert h hn
  fun_cases mulVal x y <;> simp [FVal.isInf, FVal.neg]

/-- Two infinities and two zeros have no quotient. -/
theorem divVal_isNone {x y : FVal} (h : (x.isInf = true ∧ y.isInf = true) ∨ (x.isZero = true ∧ y.isZero = true)) :
    (divVal x y).isNone = true := by
  revert h
  fun_cases divVal x y <;> simp_all [FVal.isInf, FVal.isZero]

/-- An infinity over a finite value, and a finite value other than zero over a zero, are infinities. -/
theorem divVal_inf {x y : FVal} (h : (x.isInf = true ∧ y.isFin = true) ∨
    (x.isFin = true ∧ x.isZero = false ∧ y.isZero = true)) : divVal x y = some (fInf (x.neg != y.neg)) := by
  revert h
  fun_cases divVal x y <;> simp_all [FVal.isInf, FVal.isZero, FVal.isFin, FVal.neg]

theorem divVal_fin_inf {x y : FVal} (hx : x.isFin = true) (hy : y.isInf = true) :
    divVal x y = some (fZero (x.neg != y.neg)) := by
  revert hx hy
  fun_cases divVal x y <;> simp [FVal.isInf, FVal.isFin, FVal.neg]

theorem nanProduct_eq (a b : Word) : nanProduct a b = (mulVal (unpack a) (unpack b)).isNone := by
  rw [mulVal_isNone, nanProduct, isNan_eq, isNan_eq, isInf_eq, isInf_eq, isZero_eq, isZero_eq]

theorem not_isNan_of_isInf {w : Word} (h : isInf w = true) : isNan w = false := by
  obtain ⟨neg, rfl⟩ := (isInf_iff w).1 h
  exact isNan_packMag _ _

theorem not_isNan_of_isFinite {w : Word} (h : isFinite w = true) : isNan w = false := by
  rw [isNan_eq]
  rw [isFinite_eq] at h
  cases hu : unpack w <;> simp_all [FVal.isNan, FVal.isFin]

theorem isFinite_of_isZero {w : Word} (h : isZero w = true) : isFinite w = true := by
  obtain ⟨neg, rfl⟩ := (isZero_iff w).1 h
  rw [isFinite_eq, unpack_fZero]
  rfl

theorem fadd_inf {a b : Word} (d : Nat) (ha : isInf a = true) (hb : isFinite b = true ∨ b = a) :
    fadd d a b = a ∧ fadd d b a = a := by
  obtain ⟨neg, rfl⟩ := (isInf_iff a).1 ha
  have hx : (unpack b).isFin = true ∨ unpack b = .inf neg := by
    rcases hb with hb | rfl
    · exact .inl (isFinite_eq b ▸ hb)
    · exact .inr (unpack_fInf neg)
  obtain ⟨hl, hr⟩ := addVal_inf hx
  unfold fadd
  rw [unpack_fInf, hl, hr]
  exact ⟨rfl, rfl⟩

theorem fadd_opposite_inf {a b : Word} (d : Nat) (ha : isInf a = true) (hb : isInf b = true) (hne : a ≠ b) :
    isNan (fadd d a b) = true := by
  obtain ⟨s, rfl⟩ := (isInf_iff a).1 ha
  obtain ⟨t, rfl⟩ := (isInf_iff b).1 hb
  have hst : s ≠ t := fun e => hne (by rw [e])
  unfold fadd
  rw [unpack_fInf, unpack_fInf, addVal, if_neg hst]
  exact isNan_quietNan d

theorem fmul_inf {a b : Word} (d : Nat) (h : isInf a = true ∨ isInf b = true) (hn : nanProduct a b = false) :
    fmul d a b = infOf (fSign a != fSign b) := by
  have hv : isNan (fmul d a b) = false := by rw [isNan_fmul, ← nanProduct_eq, hn]
  obtain ⟨ha, hb⟩ := not_isNan_of_fmul hv
  rw [isInf_eq, isInf_eq] at h
  rw [nanProduct_eq] at hn
  rw [fmul, mulVal_inf h hn, infOf_eq_fInf, fSign_eq_neg ha, fSign_eq_neg hb]
  rfl

theorem fdiv_inf {a b : Word} (d : Nat) (h : (isInf a = true ∧ isFinite b = true) ∨
    (isFinite a = true ∧ isZero a = false ∧ isZero b = true)) : fdiv d a b = infOf (fSign a != fSign b) := by
  have hab : isNan a = false ∧ isNan b = false := by
    rcases h with ⟨ha, hb⟩ | ⟨ha, -, hb⟩
    · exact ⟨not_isNan_of_isInf ha, not_isNan_of_isFinite hb⟩
    · exact ⟨not_isNan_of_isFinite ha, not_isNan_of_isFinite (isFinite_of_isZero hb)⟩
  simp only [isInf_eq, isFinite_eq, isZero_eq] at h
  rw [fdiv, divVal_inf h, infOf_eq_fInf, fSign_eq_neg hab.1, fSign_eq_neg hab.2]
  rfl

theorem fdiv_fin_inf {a b : Word} (d : Nat) (ha : isFinite a = true) (hb : isInf b = true) :
    fdiv d a b = zeroOf (fSign a != fSign b) := by
  rw [zeroOf_eq_fZero, fSign_eq_neg (not_isNan_of_isFinite ha), fSign_eq_neg (not_isNan_of_isInf hb)]
  rw [isFinite_eq] at ha
  rw [isInf_eq] at hb
  rw [fdiv, divVal_fin_inf ha hb]
  rfl

/-- Settles O60, one lemma for each row of the default results. -/
theorem infiniteOperands : Obligations.InfiniteOperands := by
  intro d a b
  refine ⟨fadd_inf d, fadd_opposite_inf d, ?_, fmul_inf d, ?_, fdiv_inf d, fdiv_fin_inf d⟩
  · rw [isNan_fmul, nanProduct_eq]
  · intro h
    simp only [isInf_eq, isZero_eq] at h
    rw [isNan_fdiv, divVal_isNone h]

end Sys2Proof.Machine
end

section
/-! SUPPORT and PROOFS. Rounding: the significand that `roundPack` counts lies within half a unit of the exact value, on
the even side at a tie; packed, it is the binary32 value nearest to it, or the infinity past the threshold. -/

namespace Sys2Proof.Machine

/-! ## Signs and exact values -/

/-- The factor of a sign. -/
def signQ (neg : Bool) : ℚ := if neg then -1 else 1

theorem signed_cast (neg : Bool) (m : Nat) : (signed neg m : ℚ) = signQ neg * m := by
  cases neg <;> simp [signed, signQ]

theorem signQ_bne (a b : Bool) : signQ (a != b) = signQ a * signQ b := by
  cases a <;> cases b <;> simp [signQ]

theorem signQ_div (a b : Bool) : signQ (a != b) = signQ a / signQ b := by
  cases a <;> cases b <;> simp [signQ]

theorem abs_signQ_mul (neg : Bool) (x : ℚ) : |signQ neg * x| = |x| := by
  cases neg <;> simp [signQ]

/-- Distances do not change when both ends are given a sign. -/
theorem abs_signQ_sub (neg : Bool) (x y : ℚ) : |y - signQ neg * x| = |signQ neg * y - x| := by
  cases neg
  · simp [signQ]
  · rw [← abs_neg]
    congr 1
    simp [signQ]
    ring

/-- A significand of 24 bits and an exponent that binary32 has. -/
theorem unpack_bounds {w : Word} {neg : Bool} {m : Nat} {e : Int} (h : unpack w = .fin neg m e) :
    m < 2 ^ 24 ∧ -149 ≤ e := by
  have hf := fFrac_lt w
  revert h
  fun_cases unpack w <;> simp <;> omega

/-- A value whose significand fits in 24 bits and whose unit is not below the subnormal one. -/
def Representable (y : ℚ) : Prop := ∃ j e : ℤ, |j| < 2 ^ 24 ∧ -149 ≤ e ∧ y = j * 2 ^ e

theorem representable_fValue {w : Word} (h : isFinite w = true) : Representable (fValue w) := by
  obtain ⟨neg, m, e, hu⟩ := (isFinite_iff w).1 h
  obtain ⟨hm, he⟩ := unpack_bounds hu
  refine ⟨signed neg m, e, ?_, he, fValue_of_unpack hu⟩
  cases neg <;> simp [signed] <;> omega

theorem Representable.signQ_mul {y : ℚ} (h : Representable y) (neg : Bool) : Representable (signQ neg * y) := by
  obtain ⟨j, e, hj, he, rfl⟩ := h
  cases neg
  · exact ⟨j, e, hj, he, by simp [signQ]⟩
  · exact ⟨-j, e, by rwa [abs_neg], he, by simp [signQ]⟩

/-! ## What a rounded significand is -/

/-- `m` units of `2^u` are the value `x >= 0` rounded: within half a unit, even at a tie, with 24 significant bits
unless the unit is the subnormal one. -/
structure RoundsTo (x : ℚ) (u : ℤ) (m : ℕ) : Prop where
  unit_ge : -149 ≤ u
  near : |x - m * 2 ^ u| ≤ 2 ^ u / 2
  tie : |x - m * 2 ^ u| = 2 ^ u / 2 → m % 2 = 0
  sig_le : m ≤ 2 ^ 24
  normal : u = -149 ∨ (2 ^ 23 ≤ m ∧ 2 ^ 23 * 2 ^ u ≤ x)

/-- `y` is no nearer to `x` than `v`, and as near only if it is `v` or the tie was broken to even. -/
def NoNearer (x v y : ℚ) (m : ℕ) : Prop := |v - x| < |y - x| ∨ y = v ∨ (|v - x| = |y - x| ∧ m % 2 = 0)

/-- No other multiple of the unit is nearer. -/
theorem RoundsTo.noNearer_multiple {x : ℚ} {u : ℤ} {m : ℕ} (h : RoundsTo x u m) (i : ℤ) :
    NoNearer x (m * 2 ^ u) (i * 2 ^ u) m := by
  have hu : (0 : ℚ) < 2 ^ u := by positivity
  by_cases him : i = m
  · exact .inr (.inl (by rw [him]; norm_cast))
  have hstep : (2 : ℚ) ^ u ≤ |(i : ℚ) * 2 ^ u - m * 2 ^ u| := by
    have h1 : (1 : ℚ) ≤ |(i : ℚ) - m| := by
      have : (1 : ℤ) ≤ |i - m| := Int.one_le_abs (sub_ne_zero.2 him)
      exact_mod_cast this
    rw [← sub_mul, abs_mul, abs_of_pos hu]
    nlinarith
  have htri := abs_sub_le ((i : ℚ) * 2 ^ u) x (m * 2 ^ u)
  have hnear := h.near
  have htie := h.tie
  unfold NoNearer
  rw [abs_sub_comm ((m : ℚ) * 2 ^ u) x]
  rcases lt_or_ge |x - (m : ℚ) * 2 ^ u| |(i : ℚ) * 2 ^ u - x| with hlt | hge
  · exact .inl hlt
  · exact .inr (.inr ⟨by linarith, htie (by linarith)⟩)

/-- No representable value is nearer: one that is no multiple of the unit lies below the binade of `x`. -/
theorem RoundsTo.noNearer {x y : ℚ} {u : ℤ} {m : ℕ} (h : RoundsTo x u m) (hy : Representable y) :
    NoNearer x (m * 2 ^ u) y m := by
  obtain ⟨j, e, hj, he, rfl⟩ := hy
  rcases le_or_gt u e with hue | heu
  · have hmul : (j : ℚ) * 2 ^ e = ((j * 2 ^ (e - u).toNat : ℤ) : ℚ) * 2 ^ u := by
      push_cast
      rw [mul_assoc, ← zpow_natCast, ← zpow_add₀ two_ne_zero]
      congr 2
      omega
    rw [hmul]
    exact h.noNearer_multiple _
  · obtain hn | ⟨-, hx⟩ := h.normal
    · omega
    have hbelow : (j : ℚ) * 2 ^ e < 2 ^ 23 * 2 ^ u := by
      have hj' : (j : ℚ) < 2 ^ 24 := by exact_mod_cast (abs_lt.1 hj).2
      calc (j : ℚ) * 2 ^ e < 2 ^ 24 * 2 ^ e := by gcongr
        _ ≤ 2 ^ 24 * 2 ^ (u - 1) :=
          mul_le_mul_of_nonneg_left (zpow_le_zpow_right₀ one_le_two (by omega)) (by positivity)
        _ = 2 ^ 23 * 2 ^ u := by rw [zpow_sub_one₀ two_ne_zero]; ring
    have hbinade : |(m : ℚ) * 2 ^ u - x| ≤ |2 ^ 23 * 2 ^ u - x| := by
      have h23 := h.noNearer_multiple (2 ^ 23)
      push_cast at h23
      rcases h23 with h1 | h1 | ⟨h1, -⟩
      · exact h1.le
      · exact le_of_eq (by rw [← h1]; norm_num)
      · exact h1.le
    refine .inl (hbinade.trans_lt ?_)
    rw [abs_of_nonpos (by linarith), abs_of_nonpos (by linarith)]
    linarith

/-! ## Packing a rounded significand -/

/-- The magnitude bits of `m` units of `2^u`. -/
def magOf (u : ℤ) (m : ℕ) : ℕ := (u + 149).toNat * 2 ^ 23 + m

/-- `w` is the correctly rounded `q`: the statement shared by the obligations on addition, multiplication and
division. -/
def RoundsCorrectly (q : ℚ) (w : Word) : Prop :=
  (|q| < 2 ^ 128 - 2 ^ 103 → isFinite w = true ∧ nearest q w) ∧
    (2 ^ 128 - 2 ^ 103 ≤ |q| → w = infOf (decide (q < 0)))

/-- Below the infinity's magnitude, the packed pattern stands for its significand times its unit. A significand that
was rounded up to 2^24 stands as 2^23 of the next unit. -/
theorem RoundsTo.unpack_packMag {x : ℚ} {u : ℤ} {m : ℕ} (h : RoundsTo x u m) (neg : Bool)
    (hlt : magOf u m < 0x7F800000) : ∃ m' e', unpack (packMag neg (magOf u m)) = .fin neg m' e' ∧
      (m' : ℚ) * 2 ^ e' = m * 2 ^ u := by
  have hu := h.unit_ge
  have hm := h.sig_le
  have hnormal : u = -149 ∨ 2 ^ 23 ≤ m := h.normal.imp_right And.left
  have hE := fExp_packMag neg (magOf u m)
  have hF := fFrac_packMag neg (magOf u m)
  rw [Nat.min_eq_left hlt.le] at hE hF
  unfold unpack
  rw [fSign_packMag]
  generalize fExp (packMag neg (magOf u m)) = E at hE ⊢
  generalize fFrac (packMag neg (magOf u m)) = F at hF ⊢
  unfold magOf at hE hF hlt
  rw [if_neg (by omega)]
  rcases lt_or_ge m (2 ^ 23) with hsub | hnorm
  · obtain rfl : u = -149 := by omega
    exact ⟨_, _, if_pos (by omega), by rw [show F = m by omega]⟩
  · refine ⟨_, _, if_neg (by omega), ?_⟩
    rcases hm.lt_or_eq with hlt24 | rfl
    · rw [show F + 2 ^ 23 = m by omega, show (E : ℤ) - 150 = u by omega]
    · rw [show F = 0 by omega, show (E : ℤ) - 150 = u + 1 by omega, zpow_add_one₀ two_ne_zero]
      push_cast
      ring

/-- The finite patterns are those of the values below the threshold (R23). -/
theorem RoundsTo.magOf_lt_iff {x : ℚ} {u : ℤ} {m : ℕ} (h : RoundsTo x u m) :
    magOf u m < 0x7F800000 ↔ x < 2 ^ 128 - 2 ^ 103 := by
  have hu := h.unit_ge
  have hm := h.sig_le
  have hm' : (m : ℚ) ≤ 2 ^ 24 := by exact_mod_cast hm
  obtain ⟨hlo, hhi⟩ := abs_le.1 h.near
  unfold magOf
  rcases lt_trichotomy u 104 with hsmall | rfl | hbig
  · have hpow : (2 : ℚ) ^ u ≤ 2 ^ 103 := by
      rw [← zpow_natCast]
      exact zpow_le_zpow_right₀ one_le_two (by omega)
    refine iff_of_true (by omega) ?_
    have : (m : ℚ) * 2 ^ u ≤ 2 ^ 24 * 2 ^ 103 := by gcongr
    norm_num at *
    linarith
  · have h104 : (2 : ℚ) ^ (104 : ℤ) = 2 ^ 104 := by norm_cast
    rw [h104] at hlo hhi
    constructor
    · intro hlt
      have hm1 : (m : ℚ) + 1 ≤ 2 ^ 24 := by
        have : m + 1 ≤ 2 ^ 24 := by omega
        exact_mod_cast this
      by_contra hx
      have htie : m % 2 = 0 := by
        refine h.tie (le_antisymm h.near ((le_abs_self _).trans' ?_))
        rw [h104]
        linarith
      have hm2 : (m : ℚ) + 2 ≤ 2 ^ 24 := by
        have : m + 2 ≤ 2 ^ 24 := by omega
        exact_mod_cast this
      linarith
    · intro hx
      by_contra hge
      obtain rfl : m = 2 ^ 24 := by omega
      norm_num at *
      linarith
  · obtain hn | ⟨hm23, hx⟩ := h.normal
    · omega
    have hpow : (2 : ℚ) ^ 105 ≤ 2 ^ u := by
      rw [← zpow_natCast]
      exact zpow_le_zpow_right₀ one_le_two (by omega)
    refine iff_of_false (by omega) ?_
    linarith

/-- A pattern whose value is `v` with a sign is nearest to `x` with that sign, when no representable value is nearer to
`x` than `v`. -/
theorem NoNearer.nearest_of {x v : ℚ} {m : ℕ} {w : Word} (neg : Bool) (hv : fValue w = signQ neg * v)
    (heven : w.toNat % 2 = m % 2) (h : ∀ y, Representable y → NoNearer x v y m) :
    nearest (signQ neg * x) w := by
  intro y hy
  have hyr := (representable_fValue hy).signQ_mul neg
  have hs : signQ neg * signQ neg = 1 := by cases neg <;> simp [signQ]
  rw [hv, abs_signQ_sub, abs_signQ_sub, ← mul_assoc, hs, one_mul, heven]
  refine (h _ hyr).imp_right (Or.imp_left fun e => ?_)
  rw [← e, ← mul_assoc, hs, one_mul]

/-- The packing of a rounded significand is the correctly rounded value. -/
theorem RoundsTo.roundsCorrectly {x : ℚ} {u : ℤ} {m : ℕ} (h : RoundsTo x u m) (hx : 0 ≤ x) (neg : Bool) :
    RoundsCorrectly (signQ neg * x) (packMag neg (magOf u m)) := by
  unfold RoundsCorrectly
  rw [abs_signQ_mul, abs_of_nonneg hx]
  constructor
  · intro hlt
    have hmag := h.magOf_lt_iff.2 hlt
    obtain ⟨m', e', hunpack, hval⟩ := h.unpack_packMag neg hmag
    refine ⟨(isFinite_iff _).2 ⟨_, _, _, hunpack⟩, NoNearer.nearest_of neg ?_ ?_ fun y => h.noNearer⟩
    · rw [fValue_of_unpack hunpack, signed_cast, mul_assoc, hval]
    · rw [packMag_toNat, Nat.min_eq_left hmag.le, magOf]
      cases neg <;> simp <;> omega
  · intro hge
    have hmag : 0x7F800000 ≤ magOf u m := not_lt.1 fun hlt => (h.magOf_lt_iff.1 hlt).not_ge hge
    have hpos : 0 < x := hge.trans_lt' (by norm_num)
    have hneg : decide (signQ neg * x < 0) = neg := by
      cases neg <;> simp [signQ, hpos, hpos.le]
    rw [hneg, infOf_eq_fInf, fInf, packMag, packMag, Nat.min_eq_right hmag]
    rfl

/-! ## The significand `roundPack` counts -/

/-- The integer `n` stands for the exact value `t`: it is that value, or it is odd, of at least 27 bits, and `t` lies
strictly between its two even neighbours (its last bit then only says that the division left a remainder). -/
def StandsFor (n : ℕ) (t : ℚ) : Prop := t = n ∨ (n % 2 = 1 ∧ 2 ^ 26 ≤ n ∧ |t - n| < 1)

/-- The significand `roundPack` counts in units of `2^(ulpExp n k)`. -/
def significand (n : ℕ) (k : ℤ) : ℕ :=
  if ulpExp n k ≤ k then n * 2 ^ (k - ulpExp n k).toNat else roundShift n (ulpExp n k - k).toNat

theorem roundPack_eq {n : ℕ} (hn : n ≠ 0) (neg : Bool) (k : ℤ) :
    roundPack neg n k = packMag neg (magOf (ulpExp n k) (significand n k)) := by
  rw [roundPack, if_neg hn]
  rfl

/-- Shifting right by `r` bits rounds to nearest, ties to even, over the integers. -/
theorem roundShift_near (n r : ℕ) :
    |2 * (n : ℤ) - 2 * (roundShift n r * 2 ^ r : ℕ)| ≤ (2 ^ r : ℕ) ∧
      (|2 * (n : ℤ) - 2 * (roundShift n r * 2 ^ r : ℕ)| = (2 ^ r : ℕ) → roundShift n r % 2 = 0) := by
  have hdiv := Nat.div_add_mod n (2 ^ r)
  have hmod := Nat.mod_lt n (show 0 < 2 ^ r by positivity)
  unfold roundShift
  dsimp only
  generalize 2 ^ r = p at *
  generalize n % p = rem at *
  generalize n / p = q at *
  subst hdiv
  split
  · rw [show (q + 1) * p = p * q + p by ring]
    generalize p * q = pq
    rw [abs_le, abs_eq (by omega)]
    omega
  · rw [mul_comm q p]
    generalize p * q = pq
    rw [abs_le, abs_eq (by omega)]
    omega

/-- A shift by at least two bits rounds the value the integer stands for as it rounds the integer: the tie points are
even, so an odd integer and what lies near it are on one side of each. -/
theorem StandsFor.roundShift_near {n r : ℕ} {t : ℚ} (h : StandsFor n t) (hr : 2 ^ 26 ≤ n → 2 ≤ r) :
    |2 * t - 2 * (roundShift n r * 2 ^ r)| ≤ 2 ^ r ∧
      (|2 * t - 2 * (roundShift n r * 2 ^ r)| = 2 ^ r → roundShift n r % 2 = 0) := by
  obtain ⟨hle, htie⟩ := Machine.roundShift_near n r
  rcases h with rfl | ⟨hodd, hbig, hlt⟩
  · exact ⟨by exact_mod_cast hle, fun e => htie (by exact_mod_cast e)⟩
  · have hstrict : |2 * (n : ℤ) - 2 * (roundShift n r * 2 ^ r : ℕ)| + 2 ≤ (2 ^ r : ℕ) := by
      obtain ⟨c, hc⟩ : ∃ c, 2 ^ r = 4 * c :=
        pow_dvd_pow 2 (hr hbig)
      rw [hc, ← mul_assoc, mul_comm _ 4, mul_assoc] at hle ⊢
      generalize roundShift n r * c = mc at hle ⊢
      obtain ⟨hlo, hhi⟩ := abs_le.1 hle
      rw [← le_sub_iff_add_le, abs_le]
      omega
    have hstrict' : |2 * (n : ℚ) - 2 * (roundShift n r * 2 ^ r)| + 2 ≤ 2 ^ r := by exact_mod_cast hstrict
    have htri := abs_sub_le (2 * t) (2 * (n : ℚ)) (2 * (roundShift n r * 2 ^ r))
    have hdist : |2 * t - 2 * (n : ℚ)| < 2 := by
      rw [← mul_sub, abs_mul, abs_two]
      linarith
    exact ⟨by linarith, fun e => by linarith⟩

theorem roundShift_le {n r b : ℕ} (h : n < 2 ^ (b + r)) : roundShift n r ≤ 2 ^ b := by
  have hq : n / 2 ^ r < 2 ^ b := Nat.div_lt_of_lt_mul (by rwa [← pow_add, add_comm])
  unfold roundShift
  dsimp only
  split <;> omega

theorem le_roundShift {n r b : ℕ} (h : 2 ^ (b + r) ≤ n) : 2 ^ b ≤ roundShift n r := by
  have hq : 2 ^ b ≤ n / 2 ^ r := (Nat.le_div_iff_mul_le (by positivity)).2 (by rwa [← pow_add])
  unfold roundShift
  dsimp only
  split <;> omega

/-- A power of two below the integer is below the value it stands for. -/
theorem StandsFor.pow_le {n b : ℕ} {t : ℚ} (h : StandsFor n t) (hb : 1 ≤ b) (hn : 2 ^ b ≤ n) : (2 : ℚ) ^ b ≤ t := by
  rcases h with rfl | ⟨hodd, -, hlt⟩
  · exact_mod_cast hn
  · have hne : 2 ^ b + 1 ≤ n := by
      have : 2 ^ b % 2 = 0 := Nat.mod_eq_zero_of_dvd (dvd_pow_self 2 (by omega))
      omega
    have hne' : (2 : ℚ) ^ b + 1 ≤ n := by exact_mod_cast hne
    linarith [(abs_lt.1 hlt).1]

/-- A unit not above the integer's own: the significand is exact. -/
theorem roundsTo_exact {n : ℕ} {k : ℤ} {t : ℚ} (hn : n ≠ 0) (h : StandsFor n t) (hu : ulpExp n k ≤ k) :
    RoundsTo (t * 2 ^ k) (ulpExp n k) (significand n k) := by
  have hlo := Nat.log2_self_le hn
  have hhi := Nat.lt_log2_self (n := n)
  have hdef : ulpExp n k = max (k + n.log2 - 23) (-149) := rfl
  have hn24 : n < 2 ^ 24 := hhi.trans_le (Nat.pow_le_pow_right (by omega) (by omega))
  have hsig : significand n k = n * 2 ^ (k - ulpExp n k).toNat := if_pos hu
  obtain rfl : t = n := h.resolve_right fun ⟨_, hbig, _⟩ => by omega
  have hval : (significand n k : ℚ) * 2 ^ ulpExp n k = n * 2 ^ k := by
    rw [hsig]
    push_cast
    rw [mul_assoc, ← zpow_natCast, ← zpow_add₀ two_ne_zero]
    congr 2
    omega
  have hzero : |(n : ℚ) * 2 ^ k - significand n k * 2 ^ ulpExp n k| = 0 := by rw [hval, sub_self, abs_zero]
  have hpos : (0 : ℚ) < 2 ^ ulpExp n k / 2 := by positivity
  refine ⟨by omega, by rw [hzero]; exact hpos.le, fun e => absurd (hzero ▸ e) hpos.ne, ?_, ?_⟩
  · have hle : n * 2 ^ (k - ulpExp n k).toNat < 2 ^ (n.log2 + 1) * 2 ^ (23 - n.log2) :=
      Nat.mul_lt_mul_of_lt_of_le hhi (Nat.pow_le_pow_right (by omega) (by omega)) (by positivity)
    rw [← pow_add, show n.log2 + 1 + (23 - n.log2) = 24 by omega] at hle
    exact hsig ▸ hle.le
  · refine or_iff_not_imp_left.2 fun hne => ?_
    have hge : 2 ^ n.log2 * 2 ^ (k - ulpExp n k).toNat ≤ n * 2 ^ (k - ulpExp n k).toNat :=
      Nat.mul_le_mul_right _ hlo
    rw [← pow_add, show n.log2 + (k - ulpExp n k).toNat = 23 by omega, ← hsig] at hge
    refine ⟨hge, ?_⟩
    rw [← hval]
    gcongr
    exact_mod_cast hge

/-- A unit above the integer's own: the significand is the integer shifted down and rounded. -/
theorem roundsTo_shift {n : ℕ} {k : ℤ} {t : ℚ} (hn : n ≠ 0) (h : StandsFor n t) (hu : k < ulpExp n k) :
    RoundsTo (t * 2 ^ k) (ulpExp n k) (significand n k) := by
  have hlo := Nat.log2_self_le hn
  have hhi := Nat.lt_log2_self (n := n)
  have hdef : ulpExp n k = max (k + n.log2 - 23) (-149) := rfl
  obtain ⟨r, hr⟩ : ∃ r : ℕ, ulpExp n k = k + r := ⟨(ulpExp n k - k).toNat, by omega⟩
  have hsig : significand n k = roundShift n r := by
    rw [significand, if_neg (by omega), hr, add_sub_cancel_left, Int.toNat_natCast]
  have hr2 : 2 ^ 26 ≤ n → 2 ≤ r := fun hbig => by
    have := (Nat.le_log2 hn).2 hbig
    omega
  have hscale : (2 : ℚ) ^ ulpExp n k = 2 ^ r * 2 ^ k := by
    rw [hr, add_comm, zpow_add₀ two_ne_zero, zpow_natCast]
  have hk : (0 : ℚ) < 2 ^ k := by positivity
  obtain ⟨hnear, htie⟩ := h.roundShift_near hr2
  have herr : |t * 2 ^ k - roundShift n r * 2 ^ ulpExp n k|
      = |2 * t - 2 * (roundShift n r * 2 ^ r)| * (2 ^ k / 2) := by
    rw [hscale, ← abs_of_pos (half_pos hk), ← abs_mul]
    congr 1
    ring
  rw [hsig]
  refine ⟨by omega, ?_, ?_, roundShift_le (hhi.trans_le ?_), or_iff_not_imp_left.2 fun hne => ?_⟩
  · rw [herr, hscale, mul_div_assoc]
    gcongr
  · rw [herr, hscale, mul_div_assoc]
    exact fun e => htie (mul_right_cancel₀ (half_pos hk).ne' e)
  · exact Nat.pow_le_pow_right (by omega) (by omega)
  · have hpow : 2 ^ (23 + r) ≤ n := by rwa [show 23 + r = n.log2 by omega]
    refine ⟨le_roundShift hpow, ?_⟩
    rw [hscale, ← mul_assoc, ← pow_add]
    exact mul_le_mul_of_nonneg_right (h.pow_le (by omega) hpow) hk.le

theorem StandsFor.roundsTo {n : ℕ} {t : ℚ} (h : StandsFor n t) (hn : n ≠ 0) (k : ℤ) :
    RoundsTo (t * 2 ^ k) (ulpExp n k) (significand n k) :=
  (le_or_gt (ulpExp n k) k).elim (roundsTo_exact hn h) (roundsTo_shift hn h)

theorem StandsFor.nonneg {n : ℕ} {t : ℚ} (h : StandsFor n t) : 0 ≤ t := by
  rcases h with rfl | ⟨-, hbig, hlt⟩
  · positivity
  · have : (1 : ℚ) ≤ n := by exact_mod_cast (show 1 ≤ n by omega)
    linarith [(abs_lt.1 hlt).1]

theorem roundsTo_zero : RoundsTo 0 (-149) 0 where
  unit_ge := le_rfl
  near := by norm_num
  tie := fun _ => rfl
  sig_le := by omega
  normal := .inl rfl

theorem fZero_roundsCorrectly (neg : Bool) : RoundsCorrectly 0 (fZero neg) := by
  have := roundsTo_zero.roundsCorrectly le_rfl neg
  rwa [mul_zero] at this

/-- `roundPack` rounds the value its integer stands for correctly, with its sign (R12). -/
theorem StandsFor.roundPack_roundsCorrectly {n : ℕ} {t : ℚ} (h : StandsFor n t) (neg : Bool) (k : ℤ) :
    RoundsCorrectly (signQ neg * (t * 2 ^ k)) (roundPack neg n k) := by
  rcases eq_or_ne n 0 with rfl | hn
  · obtain rfl : t = 0 := by
      rcases h with rfl | ⟨hodd, -⟩
      · exact Nat.cast_zero
      · omega
    rw [zero_mul, mul_zero, roundPack, if_pos rfl]
    exact fZero_roundsCorrectly neg
  · rw [roundPack_eq hn]
    exact (h.roundsTo hn k).roundsCorrectly (mul_nonneg h.nonneg (by positivity)) neg

/-! ## The three operations -/

/-- A result that is a value is delivered as it is. -/
theorem nanOr_some (d : ℕ) (w : Word) : nanOr d (some w) = w := rfl

/-- The aligned sum is the exact sum of the two values. -/
theorem alignedSum_eq (a : Bool) (m : ℕ) (e : ℤ) (b : Bool) (n : ℕ) (f : ℤ) :
    (alignedSum a m e b n f : ℚ) * 2 ^ min e f = (signed a m : ℚ) * 2 ^ e + (signed b n : ℚ) * 2 ^ f := by
  have hshift : ∀ g : ℤ, min e f ≤ g → (2 : ℚ) ^ (g - min e f).toNat * 2 ^ min e f = 2 ^ g := fun g hg => by
    rw [← zpow_natCast, ← zpow_add₀ two_ne_zero]
    congr 1
    omega
  unfold alignedSum
  push_cast [signed_cast]
  rw [add_mul, mul_assoc, mul_assoc, mul_assoc, mul_assoc, hshift e (min_le_left e f), hshift f (min_le_right e f)]
  ring

/-- A signed integer is the sign of its negativity times its magnitude. -/
theorem signQ_natAbs (t : ℤ) : signQ (decide (t < 0)) * (t.natAbs : ℚ) = t := by
  rw [Nat.cast_natAbs]
  rcases lt_or_ge t 0 with h | h
  · simp [signQ, h, abs_of_neg h]
  · simp [signQ, h.not_gt, abs_of_nonneg h]

/-- The sum of finite values is a value, the exact sum correctly rounded. -/
theorem addVal_fin_roundsCorrectly (a : Bool) (m : ℕ) (e : ℤ) (b : Bool) (n : ℕ) (f : ℤ) :
    ∃ w, addVal (.fin a m e) (.fin b n f) = some w ∧
      RoundsCorrectly ((signed a m : ℚ) * 2 ^ e + (signed b n : ℚ) * 2 ^ f) w := by
  rw [← alignedSum_eq]
  by_cases h0 : alignedSum a m e b n f = 0
  · refine ⟨_, if_pos h0, ?_⟩
    rw [h0, Int.cast_zero, zero_mul]
    exact fZero_roundsCorrectly _
  · refine ⟨_, if_neg h0, ?_⟩
    rw [← signQ_natAbs, mul_assoc]
    exact StandsFor.roundPack_roundsCorrectly (.inl rfl) _ _

/-- The scaled quotient with its last bit stands for the exact quotient: 24-bit operands leave it at least 27 bits. -/
theorem quotient_standsFor {m n : ℕ} (hn0 : n ≠ 0) (hn : n < 2 ^ 24) :
    StandsFor (quotient m n) (2 * (m * 2 ^ divShift / n : ℚ)) := by
  have hpos : (0 : ℚ) < n := by exact_mod_cast Nat.pos_of_ne_zero hn0
  have hmod := Nat.mod_lt (m * 2 ^ divShift) (Nat.pos_of_ne_zero hn0)
  have hval : (m * 2 ^ divShift / n : ℚ) = (m * 2 ^ divShift / n : ℕ) + (m * 2 ^ divShift % n : ℕ) / n := by
    rw [eq_comm, ← mul_div_cancel_left₀ ((m * 2 ^ divShift / n : ℕ) : ℚ) hpos.ne', ← add_div]
    congr 1
    exact_mod_cast Nat.div_add_mod (m * 2 ^ divShift) n
  unfold quotient
  rw [hval]
  split
  · next h0 =>
    left
    rw [h0]
    simp
  · next h0 =>
    right
    have hbig : 2 ^ 26 ≤ m * 2 ^ divShift / n := by
      have hm : 1 ≤ m := Nat.one_le_iff_ne_zero.2 fun e => h0 (by simp [e])
      rw [divShift]
      exact (Nat.le_div_iff_mul_le (by omega)).2 (by omega)
    have hlo : (0 : ℚ) < (m * 2 ^ divShift % n : ℕ) / n :=
      div_pos (by exact_mod_cast Nat.pos_of_ne_zero h0) hpos
    have hhi : ((m * 2 ^ divShift % n : ℕ) / n : ℚ) < 1 := (div_lt_one hpos).2 (by exact_mod_cast hmod)
    refine ⟨by omega, by omega, ?_⟩
    rw [abs_lt]
    push_cast at hlo hhi ⊢
    constructor <;> linarith

/-- Settles O53, from the exact sum and the rounding of `roundPack`. -/
theorem faddRoundsToNearest : Obligations.FaddRoundsToNearest := by
  intro d a b ha hb
  obtain ⟨s, m, e, hae⟩ := (isFinite_iff a).1 ha
  obtain ⟨t, n, f, hbf⟩ := (isFinite_iff b).1 hb
  obtain ⟨w, hw, hround⟩ := addVal_fin_roundsCorrectly s m e t n f
  rw [fValue_of_unpack hae, fValue_of_unpack hbf, fadd, hae, hbf, hw, nanOr_some]
  exact hround

/-- Settles O54: the product of the significands is the exact product's. -/
theorem fmulRoundsToNearest : Obligations.FmulRoundsToNearest := by
  intro d a b ha hb
  obtain ⟨s, m, e, hae⟩ := (isFinite_iff a).1 ha
  obtain ⟨t, n, f, hbf⟩ := (isFinite_iff b).1 hb
  have hq : fValue a * fValue b = signQ (s != t) * ((m * n : ℕ) * 2 ^ (e + f)) := by
    rw [fValue_of_unpack hae, fValue_of_unpack hbf, signed_cast, signed_cast, signQ_bne, zpow_add₀ two_ne_zero]
    push_cast
    ring
  rw [hq, fmul, hae, hbf, mulVal, nanOr_some]
  exact StandsFor.roundPack_roundsCorrectly (.inl rfl) _ _

/-- Settles O55: the scaled quotient stands for the exact one. -/
theorem fdivRoundsToNearest : Obligations.FdivRoundsToNearest := by
  intro d a b ha hb hb0
  obtain ⟨s, m, e, hae⟩ := (isFinite_iff a).1 ha
  obtain ⟨t, n, f, hbf⟩ := (isFinite_iff b).1 hb
  have hn0 : n ≠ 0 := by
    rintro rfl
    exact hb0 (by rw [fValue_of_unpack hbf, signed_cast]; simp)
  have hq : fValue a / fValue b =
      signQ (s != t) * (2 * (m * 2 ^ divShift / n : ℚ) * 2 ^ (e - f - divShift - 1)) := by
    rw [fValue_of_unpack hae, fValue_of_unpack hbf, signed_cast, signed_cast, signQ_div,
      zpow_sub_one₀ two_ne_zero, zpow_sub₀ two_ne_zero, zpow_sub₀ two_ne_zero, zpow_natCast]
    generalize divShift = k
    have : signQ t ≠ 0 := by cases t <;> simp [signQ]
    field_simp
  rw [hq, fdiv, hae, hbf, divVal, if_neg hn0, nanOr_some]
  exact (quotient_standsFor hn0 (unpack_bounds hbf).1).roundPack_roundsCorrectly _ _

/-! ## Signs of results -/

/-- Only the zeros have the value 0. -/
theorem eq_fZero_of_fValue {w : Word} (h : isFinite w = true) (h0 : fValue w = 0) : w = fZero (fSign w) := by
  obtain ⟨neg, m, e, hu⟩ := (isFinite_iff w).1 h
  rw [fValue_of_unpack hu, signed_cast] at h0
  obtain rfl : m = 0 := by
    have : (2 : ℚ) ^ e ≠ 0 := by positivity
    cases neg <;> simpa [signQ, this] using h0
  rw [fSign_of_fin hu]
  exact eq_fZero_of_unpack hu

/-- A negative finite pattern has no positive value. -/
theorem fValue_nonpos {w : Word} (h : isFinite w = true) (hs : fSign w = true) : fValue w ≤ 0 := by
  obtain ⟨neg, m, e, hu⟩ := (isFinite_iff w).1 h
  obtain rfl : neg = true := (fSign_of_fin hu).symm.trans hs
  rw [fValue_of_unpack hu, signed_cast, signQ, if_pos rfl, neg_one_mul, neg_mul, neg_nonpos]
  positivity

/-- An exact zero sum of finite values is the zero whose sign both operands have, else +0.0. -/
theorem fadd_zero_sum {a b : Word} (d : ℕ) (ha : isFinite a = true) (hb : isFinite b = true)
    (h0 : fValue a + fValue b = 0) : fadd d a b = fZero (fSign a && fSign b) := by
  obtain ⟨s, m, e, hae⟩ := (isFinite_iff a).1 ha
  obtain ⟨t, n, f, hbf⟩ := (isFinite_iff b).1 hb
  have hsum : alignedSum s m e t n f = 0 := by
    rw [fValue_of_unpack hae, fValue_of_unpack hbf, ← alignedSum_eq] at h0
    have : (2 : ℚ) ^ min e f ≠ 0 := by positivity
    exact_mod_cast (mul_eq_zero.1 h0).resolve_right this
  rw [fSign_of_fin hae, fSign_of_fin hbf, fadd, hae, hbf, addVal, hsum]
  rfl

/-- Two finite values of sum 0 are both negative patterns exactly when both are -0.0. -/
theorem both_negative_iff {a b : Word} (ha : isFinite a = true) (hb : isFinite b = true)
    (h0 : fValue a + fValue b = 0) :
    (fSign a && fSign b) = true ↔ a = 0x80000000 ∧ b = 0x80000000 := by
  have hneg : fZero true = 0x80000000 := by decide
  rw [Bool.and_eq_true]
  constructor
  · rintro ⟨hsa, hsb⟩
    have hva := fValue_nonpos ha hsa
    have hvb := fValue_nonpos hb hsb
    have hza := eq_fZero_of_fValue ha (by linarith)
    have hzb := eq_fZero_of_fValue hb (by linarith)
    rw [hza, hzb, hsa, hsb, hneg]
    exact ⟨rfl, rfl⟩
  · rintro ⟨rfl, rfl⟩
    decide

/-- Settles O56: every product and quotient packs the signs combined, and a zero sum packs the sign both operands
have. -/
theorem signsOfResults : Obligations.SignsOfResults := by
  intro d a b
  refine ⟨fSign_fmul, fSign_fdiv, fun ha hb h0 => ?_⟩
  rw [fadd_zero_sum d ha hb h0]
  simp only [← both_negative_iff ha hb h0]
  cases fSign a && fSign b <;> decide

end Sys2Proof.Machine
end

section
/-! SUPPORT and PROOFS. The state and its frames: what a command reads, what it leaves unchanged, and what it does on an
Empty slot. -/

namespace Sys2Proof.Machine

/-! ## Frames -/

/-- `exec_cases` for the next state at hand. -/
theorem exec_next_cases {i : Instr} {s t : State} (h : exec i s = .next t) :
    t = s.illegal ∨ Succeeds i s t ∨ ∃ e, t = s.raise e (errorSlot i) := by
  obtain ⟨u, hu, hcases⟩ := exec_cases i s
  obtain rfl : u = t := next_inj (h.symm.trans hu)
  rcases hcases with ⟨-, hill⟩ | ⟨-, hrun⟩
  · exact .inl hill
  · exact .inr hrun

/-- No command changes what stands at the interface or the rest of the run (R27, R28, R142). -/
theorem exec_keeps_host {i : Instr} {s t : State} (h : exec i s = .next t) :
    t.src = s.src ∧ t.snkOk = s.snkOk ∧ t.inbox = s.inbox := by
  rcases exec_next_cases h with rfl | ⟨pb, n, words, snk, rfl, -⟩ | ⟨e, rfl⟩
  · exact ⟨rfl, rfl, rfl⟩
  · exact ⟨rfl, rfl, rfl⟩
  · simp

/-- The slot an error empties is the command's destination. -/
theorem rd?_of_errorSlot {i : Instr} {rd : SlotIx} (h : errorSlot i = some rd) : i.rd? = some rd := by
  unfold errorSlot at h
  split at h
  · exact h
  · cases h

/-- An error completion changes no slot but the one it empties (R118). -/
theorem State.raise_pb_other (s : State) (e : ErrKind) {rd : Option SlotIx} {j : Nat}
    (hj : ∀ i, rd = some i → i.toNat ≠ j) : (s.raise e rd).pb[j]? = s.pb[j]? := by
  cases rd with
  | none => rfl
  | some i => exact List.getElem?_set_ne (hj i rfl)

/-- A success and an error both write at most the destination, so every other slot is as before (R15, R19). -/
theorem exec_keeps_other_slots {i : Instr} {s t : State} (h : exec i s = .next t) {j : Nat}
    (hj : ∀ rd, i.rd? = some rd → rd.toNat ≠ j) : t.pb[j]? = s.pb[j]? := by
  rcases exec_next_cases h with rfl | ⟨pb, n, words, snk, rfl, rfl | ⟨rd, v, hrd, rfl⟩⟩ | ⟨e, rfl⟩
  · rfl
  · rfl
  · exact List.getElem?_set_ne (hj rd hrd)
  · exact s.raise_pb_other e fun rd hrd => hj rd (rd?_of_errorSlot hrd)

/-- Settles O16, by the three frames of a command: the parameters, the host's side, the other slots. -/
theorem onlyDestinationSlotChanges : Obligations.OnlyDestinationSlotChanges := by
  intro i s t h
  obtain ⟨hn, hcap⟩ := exec_keeps_parameters h
  obtain ⟨hsrc, hok, hin⟩ := exec_keeps_host h
  exact ⟨hn, hcap, hsrc, hok, hin, fun j hj => exec_keeps_other_slots h hj⟩

/-- Settles O17: every way each of the four commands can end is one answer on the state as it was. -/
theorem readersChangeNoSlot : Obligations.ReadersChangeNoSlot := by
  rintro s t i (⟨rs, x, y, rfl⟩ | ⟨rs, rfl | rfl | rfl⟩) h
  · rcases execPbGet_cases h with ⟨-, rfl⟩ | ⟨-, ⟨b, -, rfl⟩ | ⟨-, rfl⟩⟩ <;> rfl
  · rcases execPbWidth_cases h with ⟨-, rfl⟩ | ⟨-, ⟨b, -, rfl⟩ | ⟨-, rfl⟩⟩ <;> rfl
  · rcases execPbHeight_cases h with ⟨-, rfl⟩ | ⟨-, ⟨b, -, rfl⟩ | ⟨-, rfl⟩⟩ <;> rfl
  · rcases execBmpEncode_cases h with ⟨-, rfl⟩ | ⟨-, ⟨b, -, -, rfl⟩ | ⟨b, -, -, rfl⟩ | ⟨-, rfl⟩⟩ <;> rfl

/-! ## What a command reads

The operations commute with presenting other streams and another rest of the run, so a command that looks at none of
them does too. -/

section Present

variable {s t : State} {src : Option (List Byte)} {ok : Bool} {rest : List HostEvent}

theorem State.raise_present (e : ErrKind) (rd : Option SlotIx) :
    (s.present src ok rest).raise e rd = (s.raise e rd).present src ok rest := by
  cases rd <;> rfl

theorem State.store_present (rd : SlotIx) (r : Except ErrKind Buf) :
    (s.present src ok rest).store rd r = (s.store rd r).present src ok rest := by
  cases r <;> rfl

theorem withBuffer_present {i : SlotIx} {rd : Option SlotIx} {run run' : Buf → State}
    (hrun : ∀ b, run' b = (run b).present src ok rest) :
    withBuffer (s.present src ok rest) i rd run' = (withBuffer s i rd run).present src ok rest := by
  rcases withBuffer_cases s i rd run with ⟨b, hb, e⟩ | ⟨he, e⟩
  · rw [e, ← hrun]
    exact withBuffer_buf (s := s.present src ok rest) hb rd run'
  · rw [e, ← State.raise_present]
    exact withBuffer_empty (s := s.present src ok rest) he rd run'

theorem ifLegal_present {i : Instr} {run run' : State} (hrun : run' = run.present src ok rest)
    (h : ifLegal i s run = .next t) :
    ifLegal i (s.present src ok rest) run' = .next (t.present src ok rest) := by
  subst hrun
  rcases ifLegal_cases h with ⟨hw, rfl⟩ | ⟨hw, rfl⟩
  · exact ifLegal_of_not_wf _ hw
  · exact ifLegal_of_wf _ hw

/-- Only BMP_DECODE reads SRC, only BMP_ENCODE reads SNK_OK, and no command reads the rest of the run (R27, R28). -/
theorem exec_present {i : Instr} (hsrc : ∀ rd, i = .bmpDecode rd → src = s.src)
    (hok : ∀ rs, i = .bmpEncode rs → ok = s.snkOk) (h : exec i s = .next t) :
    exec i (s.present src ok rest) = .next (t.present src ok rest) := by
  cases i with
  | pbCreate rd w h' => exact ifLegal_present (State.store_present _ _) h
  | pbGet rs x y => exact ifLegal_present (withBuffer_present fun _ => rfl) h
  | pbSet rd x y r g b => exact ifLegal_present (withBuffer_present fun _ => by split <;> rfl) h
  | pbWidth rs => exact ifLegal_present (withBuffer_present fun _ => rfl) h
  | pbHeight rs => exact ifLegal_present (withBuffer_present fun _ => rfl) h
  | bmpDecode rd =>
    obtain rfl := hsrc rd rfl
    exact ifLegal_present (State.store_present _ _) h
  | bmpEncode rs =>
    obtain rfl := hok rs rfl
    refine ifLegal_present (withBuffer_present fun b => ?_) h
    rw [State.present_snkOk]
    cases s.snkOk <;> rfl
  | convApply rd rs k =>
    refine ifLegal_present (withBuffer_present fun b => ?_) h
    rw [State.present_pbCap, State.present_draws]
    cases convBuffer s.pbCap s.draws b k with
    | error e => exact State.store_present rd (.error e)
    | ok d => rfl

end Present

/-- Settles O15: a command run on the state with another stream presented ends as before, with that stream presented;
the other operands it leaves as they stand. -/
theorem streamsAreReadByTheirCommandsOnly : Obligations.StreamsAreReadByTheirCommandsOnly := by
  intro i s t src ok h
  obtain ⟨hsrc, hok, hin⟩ := exec_keeps_host h
  constructor
  · intro hne
    calc exec i { s with src := src }
      _ = .next (t.present src s.snkOk s.inbox) := exec_present (fun rd e => absurd e (hne rd)) (fun _ _ => rfl) h
      _ = .next { t with src := src } := by rw [← hok, ← hin]; rfl
  · intro hne
    calc exec i { s with snkOk := ok }
      _ = .next (t.present s.src ok s.inbox) := exec_present (fun _ _ => rfl) (fun rs e => absurd e (hne rs)) h
      _ = .next { t with snkOk := ok } := by rw [← hsrc, ← hin]; rfl

/-- Settles O14: no test of a command looks at STATUS, and every completion overwrites it. -/
theorem statusIsNeverRead : Obligations.StatusIsNeverRead := by
  intro i s c
  cases i <;> rfl

/-! ## Reset and Empty slots -/

/-- Settles O5: the buffer file after reset is Empty slots repeated. -/
theorem resetState : Obligations.ResetState :=
  ⟨fun _ hv => List.eq_of_mem_replicate hv, rfl⟩

/-- An element of the buffer file is what the slot of that index reads. -/
theorem State.slot_of_getElem? {s : State} {i : SlotIx} {v : Slot} (h : s.pb[i.toNat]? = some v) :
    s.slot i = v := by
  simp [State.slot, List.getD_eq_getElem?_getD, h]

/-- A command that uses one slot is legal when that slot exists. -/
theorem wellFormed_of_one_slot {i : Instr} {nbuf : Nat} {e : SlotIx}
    (huses : i.slotsExist nbuf = Instr.slotNamed nbuf e) (hdiff : i.slotsDiffer = true) (hlt : e.toNat < nbuf) :
    i.wellFormed nbuf = true := by
  simp [Instr.wellFormed, huses, hdiff, Instr.slotNamed, hlt]

/-- CONV_APPLY between two existing, different slots is legal. -/
theorem wellFormed_convApply {rd rs : SlotIx} {k : List Word} {nbuf : Nat} (hrd : rd.toNat < nbuf)
    (hrs : rs.toNat < nbuf) (hne : rd ≠ rs) : (Instr.convApply rd rs k).wellFormed nbuf = true := by
  simp [Instr.wellFormed, Instr.slotsExist, Instr.slotsDiffer, Instr.slotNamed, hrd, hrs, hne]

/-- A legal command whose operand fetch finds the slot Empty ends with EmptyBuffer (R20, R71). -/
theorem ifLegal_withBuffer_empty {i : Instr} {s : State} {e : SlotIx} (hw : i.wellFormed s.nbuf = true)
    (he : s.slot e = .empty) (rd : Option SlotIx) (run : Buf → State) :
    ifLegal i s (withBuffer s e rd run) = .next (s.raise .emptyBuffer rd) := by
  rw [ifLegal_of_wf _ hw, withBuffer_empty he]

/-- Settles O22: each of the six commands is legal, and its operand fetch finds the slot Empty. -/
theorem emptySlotEndsCommand : Obligations.EmptySlotEndsCommand := by
  intro s e hget
  have he : s.slot e = .empty := State.slot_of_getElem? hget
  obtain ⟨hlt, -⟩ := List.getElem?_eq_some_iff.1 hget
  have hends (i : Instr) (run : Buf → State) (huses : i.slotsExist s.nbuf = Instr.slotNamed s.nbuf e)
      (hdiff : i.slotsDiffer = true) : ifLegal i s (withBuffer s e none run) = .next (s.raise .emptyBuffer none) :=
    ifLegal_withBuffer_empty (wellFormed_of_one_slot huses hdiff hlt) he none run
  exact ⟨fun _ _ => hends _ _ rfl rfl, fun _ _ _ _ _ => hends _ _ rfl rfl, hends _ _ rfl rfl, hends _ _ rfl rfl,
    hends _ _ rfl rfl, fun _ _ hrd hne => ifLegal_withBuffer_empty (wellFormed_convApply hrd hlt hne) he _ _⟩

end Sys2Proof.Machine
end

section
/-! SUPPORT and PROOFS. Packets: the decoder and the encoder are inverse to each other, the decoder rejects exactly the
packets of R56, and what an illegal packet or command does. -/

namespace Sys2Proof

open Machine

/-! ## The decoder and the encoder -/

/-- The slot fields the operation does not use are 0 (R57; test 4 of R56). -/
def Opcode.UnusedZero (op : Opcode) (rd rs : SlotIx) : Prop :=
  (op.usesRd = false → rd = 0#4) ∧ (op.usesRs = false → rs = 0#4)

theorem Opcode.not_unusedZero_iff {op : Opcode} {rd rs : SlotIx} : ¬op.UnusedZero rd rs ↔
    (op.usesRd = false ∧ rd ≠ 0#4) ∨ (op.usesRs = false ∧ rs ≠ 0#4) := by
  unfold Opcode.UnusedZero
  tauto

/-- All that tests 4 to 7 of R56 let through. -/
theorem decodeFields_ok_iff {nbuf : Nat} {op : Opcode} {rd rs : SlotIx} {ops : List Word} {i : Instr} :
    decodeFields nbuf op rd rs ops = .ok i ↔
      op.UnusedZero rd rs ∧ shape op rd rs ops = some i ∧ i.wellFormed nbuf = true := by
  unfold decodeFields
  by_cases hz : op.UnusedZero rd rs
  · rw [if_neg fun h => Opcode.not_unusedZero_iff.2 h hz]
    cases hs : shape op rd rs ops with
    | none => simp
    | some j =>
      simp only [checkSlots_ok_iff, hz, true_and, Option.some.injEq]
      exact and_congr_right fun h => by rw [h]
  · rw [if_pos (Opcode.not_unusedZero_iff.1 hz)]
    simp [hz]

/-- A header that passes tests 2 and 3 of R56 goes to the tests on its fields. -/
theorem decode_cons {nbuf : Nat} {h : Word} {op : Opcode} {ops : List Word} (hrsv : headerRsv h = 0#16)
    (hop : Opcode.ofByte (headerOpc h) = some op) :
    decode nbuf (h :: ops) = decodeFields nbuf op (headerRd h) (headerRs h) ops := by
  simp [decode, hrsv, hop]

/-- A header made of fields is read back as those fields. -/
theorem decode_header (nbuf : Nat) (op : Opcode) (rd rs : SlotIx) (ops : List Word) :
    decode nbuf (header op rd rs :: ops) = decodeFields nbuf op rd rs ops := by
  rw [decode_cons (op := op) (by simp) (by simp), headerRd_header, headerRs_header]

/-- All that the seven tests let through: a header made of its fields, which pass tests 4 to 7. -/
theorem decode_ok_cases {nbuf : Nat} {pk : List Word} {i : Instr} (h : decode nbuf pk = .ok i) :
    ∃ op rd rs ops, pk = header op rd rs :: ops ∧ decodeFields nbuf op rd rs ops = .ok i := by
  unfold decode at h
  split at h
  · cases h
  · rename_i w ops
    split at h
    · cases h
    · rename_i hrsv
      split at h
      · cases h
      · rename_i op hop
        exact ⟨op, _, _, ops, by rw [header_of_decode (not_not.1 hrsv) hop], h⟩

/-- A command's packet is a header whose unused slot fields are 0, with the operand words that make the command. -/
theorem encode_eq_header (i : Instr) : ∃ rd rs ops, encode i = header i.opcode rd rs :: ops ∧
    i.opcode.UnusedZero rd rs ∧ shape i.opcode rd rs ops = some i := by
  cases i with
  | pbCreate rd w h => exact ⟨rd, 0, [w, h], rfl, ⟨nofun, fun _ => rfl⟩, rfl⟩
  | pbGet rs x y => exact ⟨0, rs, [x, y], rfl, ⟨fun _ => rfl, nofun⟩, rfl⟩
  | pbSet rd x y r g b => exact ⟨rd, 0, [x, y, r, g, b], rfl, ⟨nofun, fun _ => rfl⟩, rfl⟩
  | pbWidth rs => exact ⟨0, rs, [], rfl, ⟨fun _ => rfl, nofun⟩, rfl⟩
  | pbHeight rs => exact ⟨0, rs, [], rfl, ⟨fun _ => rfl, nofun⟩, rfl⟩
  | bmpDecode rd => exact ⟨rd, 0, [], rfl, ⟨nofun, fun _ => rfl⟩, rfl⟩
  | bmpEncode rs => exact ⟨0, rs, [], rfl, ⟨fun _ => rfl, nofun⟩, rfl⟩
  | convApply rd rs k => exact ⟨rd, rs, k, rfl, ⟨nofun, nofun⟩, rfl⟩

/-- Operand words that make a command, under a header whose unused slot fields are 0, are that command's packet. -/
theorem encode_of_shape {op : Opcode} {rd rs : SlotIx} {ops : List Word} {i : Instr} (hz : op.UnusedZero rd rs)
    (hs : shape op rd rs ops = some i) : encode i = header op rd rs :: ops := by
  obtain ⟨hrd, hrs⟩ := hz
  unfold shape at hs
  split at hs
  case h_8 => cases hs; rfl
  case h_1 | h_3 | h_6 => cases hs; rw [hrs rfl]; rfl
  case h_2 | h_4 | h_5 | h_7 => cases hs; rw [hrd rfl]; rfl
  all_goals cases hs

/-- A packet decodes to a command exactly when it is the packet of that command and the command is legal. -/
theorem decode_ok_iff {nbuf : Nat} {pk : List Word} {i : Instr} :
    decode nbuf pk = .ok i ↔ encode i = pk ∧ i.wellFormed nbuf = true := by
  constructor
  · intro h
    obtain ⟨op, rd, rs, ops, rfl, hf⟩ := decode_ok_cases h
    obtain ⟨hz, hs, hw⟩ := decodeFields_ok_iff.1 hf
    exact ⟨encode_of_shape hz hs, hw⟩
  · rintro ⟨rfl, hw⟩
    obtain ⟨rd, rs, ops, he, hz, hs⟩ := encode_eq_header i
    rw [he, decode_header]
    exact decodeFields_ok_iff.2 ⟨hz, hs, hw⟩

/-- Settles O1: the decoder lets through a header and operand words that make a legal command. -/
theorem encodeThenDecode : Obligations.EncodeThenDecode :=
  fun _ _ hw => decode_ok_iff.2 ⟨rfl, hw⟩

/-- Settles O2: every field of the header is read, and the unused ones are 0. -/
theorem decodeThenEncode : Obligations.DecodeThenEncode :=
  fun _ _ _ h => decode_ok_iff.1 h

/-- Settles O4, by running the decoder on the five packets. -/
theorem examplePacketsDecode : Obligations.ExamplePacketsDecode := by
  refine ⟨?_, ?_, ?_, ?_, ?_⟩ <;> decide

/-! ## The seven tests over the header as a number -/

theorem headerOpc_toNat (h : Word) : (headerOpc h).toNat = h.toNat % 2 ^ 8 := by
  simp [headerOpc]
theorem headerRd_toNat (h : Word) : (headerRd h).toNat = h.toNat / 2 ^ 8 % 16 := by
  simp [headerRd, Nat.shiftRight_eq_div_pow]
theorem headerRs_toNat (h : Word) : (headerRs h).toNat = h.toNat / 2 ^ 12 % 16 := by
  simp [headerRs, Nat.shiftRight_eq_div_pow]

/-- Test 2 of R56: the reserved bits are the header's upper half. -/
theorem headerRsv_eq_zero_iff (h : Word) : headerRsv h = 0#16 ↔ h.toNat / 2 ^ 16 = 0 := by
  have hlt : h.toNat / 2 ^ 16 < 2 ^ 16 := by have := h.isLt; omega
  rw [← BitVec.toNat_inj]
  simp only [headerRsv, BitVec.extractLsb'_toNat, Nat.shiftRight_eq_div_pow, Nat.mod_eq_of_lt hlt, BitVec.toNat_ofNat,
    Nat.zero_mod]

/-- Test 3 of R56: the eight OPC values. -/
theorem Opcode.ofByte_eq_none_iff (b : BitVec 8) : Opcode.ofByte b = none ↔
    b.toNat ∉ [0x01, 0x02, 0x03, 0x04, 0x05, 0x10, 0x11, 0x20] := by
  revert b
  decide

/-- The number of operand words of the operation's format; none for a kernel, which has any number (R51, R54). -/
def Opcode.operandCount : Opcode → Option Nat
  | .pbCreate | .pbGet => some 2
  | .pbSet => some 5
  | .pbWidth | .pbHeight | .bmpDecode | .bmpEncode => some 0
  | .convApply => none

theorem length_eq_five {α : Type} {l : List α} : l.length = 5 ↔ ∃ a b c d e, l = [a, b, c, d, e] :=
  ⟨fun _ => let [a, b, c, d, e] := l; ⟨a, b, c, d, e, rfl⟩, fun ⟨_, _, _, _, _, e⟩ => e ▸ rfl⟩

/-- Test 5 of R56. -/
theorem shape_eq_none_iff (op : Opcode) (rd rs : SlotIx) (ops : List Word) :
    shape op rd rs ops = none ↔ ∃ n, op.operandCount = some n ∧ ops.length ≠ n := by
  unfold shape
  split
  case h_9 hne | h_10 hne | h_11 hne | h_12 hne | h_13 hne | h_14 hne | h_15 hne =>
    simpa [Opcode.operandCount, List.length_eq_two, length_eq_five] using hne
  all_goals simp [Opcode.operandCount]

/-- Tests 6 and 7 of R56 on a command, by the fields it was made of. -/
theorem wellFormed_iff_of_shape {op : Opcode} {rd rs : SlotIx} {ops : List Word} {i : Instr} (nbuf : Nat)
    (hs : shape op rd rs ops = some i) : i.wellFormed nbuf = true ↔
      ¬(op.usesRd = true ∧ nbuf ≤ rd.toNat) ∧ ¬(op.usesRs = true ∧ nbuf ≤ rs.toNat) ∧
        ¬(op = .convApply ∧ rd = rs) := by
  unfold shape at hs
  split at hs <;> cases hs
  all_goals simp [Instr.wellFormed, Instr.slotsExist, Instr.slotsDiffer, Instr.slotNamed, Opcode.usesRd, Opcode.usesRs,
    and_assoc]

/-- One of tests 4 to 7 of R56 holds of the slot fields and the operand words. -/
def FieldsIllegal (nbuf : Nat) (op : Opcode) (rd rs : SlotIx) (ops : List Word) : Prop :=
  ¬op.UnusedZero rd rs ∨ (∃ n, op.operandCount = some n ∧ ops.length ≠ n) ∨
    (op.usesRd = true ∧ nbuf ≤ rd.toNat) ∨ (op.usesRs = true ∧ nbuf ≤ rs.toNat) ∨ (op = .convApply ∧ rd = rs)

theorem exists_error_iff {ε α : Type} (r : Except ε α) : (∃ e, r = .error e) ↔ ∀ a, r ≠ .ok a := by
  cases r <;> simp

/-- The tests on the fields reject exactly what R56 rejects. -/
theorem decodeFields_error_iff (nbuf : Nat) (op : Opcode) (rd rs : SlotIx) (ops : List Word) :
    (∃ e, decodeFields nbuf op rd rs ops = .error e) ↔ FieldsIllegal nbuf op rd rs ops := by
  rw [exists_error_iff, FieldsIllegal, ← shape_eq_none_iff op rd rs]
  simp only [ne_eq, decodeFields_ok_iff]
  cases hs : shape op rd rs ops with
  | none => simp
  | some i =>
    have hw := wellFormed_iff_of_shape nbuf hs
    simp only [Option.some.injEq]
    grind

/-- Of a header that passes tests 2 and 3, R56's tests on numbers are the tests on the fields. -/
theorem illegalPacket_iff_fieldsIllegal (nbuf : Nat) {h : Word} {op : Opcode} (ops : List Word)
    (hrsv : headerRsv h = 0#16) (hop : Opcode.ofByte (headerOpc h) = some op) :
    illegalPacket nbuf (h :: ops) ↔ FieldsIllegal nbuf op (headerRd h) (headerRs h) ops := by
  have hz := (headerRsv_eq_zero_iff h).1 hrsv
  have hb : h.toNat % 2 ^ 8 = op.byte.toNat := by rw [← headerOpc_toNat, Opcode.byte_of_ofByte hop]
  simp only [FieldsIllegal, Opcode.UnusedZero, ← BitVec.toNat_inj, headerRd_toNat, headerRs_toNat]
  simp only [illegalPacket, List.cons.injEq, and_assoc, exists_and_left, exists_eq_left', reduceCtorEq, false_or,
    hz, hb]
  cases op <;> simp [Opcode.byte, Opcode.operandCount, Opcode.usesRd, Opcode.usesRs]

/-- The seven tests of the decoder are those of R56. -/
theorem decode_error_iff (nbuf : Nat) (pk : List Word) :
    (∃ e, decode nbuf pk = .error e) ↔ illegalPacket nbuf pk := by
  cases pk with
  | nil => exact iff_of_true ⟨.emptyPacket, rfl⟩ (.inl rfl)
  | cons h ops =>
    by_cases hrsv : headerRsv h = 0#16
    · cases hop : Opcode.ofByte (headerOpc h) with
      | none =>
        have hopc := headerOpc_toNat h ▸ (Opcode.ofByte_eq_none_iff _).1 hop
        exact iff_of_true ⟨.unknownOpcode, by simp [decode, hrsv, hop]⟩ (.inr ⟨h, ops, rfl, .inr (.inl hopc)⟩)
      | some op =>
        rw [illegalPacket_iff_fieldsIllegal nbuf ops hrsv hop, ← decodeFields_error_iff, decode_cons hrsv hop]
    · exact iff_of_true ⟨.reservedBits, by simp [decode, hrsv]⟩
        (.inr ⟨h, ops, rfl, .inl ((headerRsv_eq_zero_iff h).not.1 hrsv)⟩)

/-- Settles O3, by the decoder's tests in their order. -/
theorem rejectedExactlyWhenIllegal : Obligations.RejectedExactlyWhenIllegal :=
  decode_error_iff

end Sys2Proof

namespace Sys2Proof.Machine

/-! ## Illegal packets and commands -/

/-- Settles O8: the decoder rejects the packet, and the block answers IllegalCommand. -/
theorem stepEndsIllegalPacket : Obligations.StepEndsIllegalPacket := by
  intro s pk src ok rest hin hill
  obtain ⟨e, he⟩ := (decode_error_iff _ _).2 hill
  have hdec : decode (s.present src ok rest).nbuf pk = .error e := he
  simp only [step, hin, runPacket, hdec]
  rfl

/-- Settles O21: of the ways a command can end, only IllegalCommand is open to an illegal one. -/
theorem illegalSlotsEndCommand : Obligations.IllegalSlotsEndCommand := by
  intro i s hill
  obtain ⟨t, ht, ⟨-, rfl⟩ | ⟨hw, -⟩⟩ := exec_cases i s
  · exact ht
  · exact absurd (hill.symm.trans hw) (by decide)

end Sys2Proof.Machine
end

section
/-! SUPPORT and PROOFS. The host's run: it stops at the first error, and the pipeline CONVOLVE runs to its end. -/

namespace Sys2Proof.Machine

/-! ## Replies -/

/-- A command answers once, with its completion code first (R60). -/
theorem exec_reply {i : Instr} {s t : State} (h : exec i s = .next t) :
    ∃ words snk, t.outbox = s.outbox ++ [⟨statusWord t.status :: words, snk⟩] := by
  rcases exec_next_cases h with rfl | ⟨pb, n, words, snk, rfl, -⟩ | ⟨e, rfl⟩
  · exact ⟨[], [], rfl⟩
  · exact ⟨words, snk, rfl⟩
  · exact ⟨[], [], by simp⟩

/-- A step on one event answers at most once, with the completion code it leaves in STATUS. -/
theorem step_reply {s t : State} (h : step s = .next t) : t.outbox = s.outbox ∨
    ∃ r : Reply, t.outbox = s.outbox ++ [r] ∧ r.words.head? = some (statusWord t.status) := by
  rcases step_cases h with ⟨-, rfl⟩ | ⟨rest, -, rfl⟩ | ⟨pk, src, ok, rest, e, -, -, rfl⟩ |
    ⟨pk, src, ok, rest, i, -, -, hx⟩
  · exact .inl rfl
  · exact .inl rfl
  · exact .inr ⟨_, rfl, rfl⟩
  · obtain ⟨words, snk, hout⟩ := exec_reply hx
    exact .inr ⟨_, hout, rfl⟩

/-- All that presenting one event can do to a host's run (R68). -/
theorem hostRun_cons_cases {e : HostEvent} {es : List HostEvent} {s t : State} (h : hostRun (e :: es) s = .next t) :
    ∃ u, step { s with inbox := [e] } = .next u ∧
      ((u.status = codeOk ∧ hostRun es u = .next t) ∨ (u.status ≠ codeOk ∧ t = u)) := by
  unfold hostRun at h
  split at h
  · rename_i u hu
    refine ⟨u, hu, ?_⟩
    split at h
    · exact .inl ⟨‹_›, h⟩
    · exact .inr ⟨‹_›, next_inj h⟩
  · rename_i hno
    exact absurd h (hno t)

/-- Settles O59, by induction on the events: after each but the last step of the run STATUS is 0, and a reply's first
word is STATUS. -/
theorem hostStopsAtFirstError : Obligations.HostStopsAtFirstError := by
  intro es
  induction es with
  | nil =>
    intro s t h
    cases next_inj h
    exact ⟨[], by simp⟩
  | cons e es ih =>
    intro s t h
    obtain ⟨u, hu, ⟨hok, hrun⟩ | ⟨-, rfl⟩⟩ := hostRun_cons_cases h
    · obtain ⟨rs, hout, hlen, hrs⟩ := ih u t hrun
      rcases step_reply hu with hsame | ⟨r, hr, hhead⟩
      · exact ⟨rs, hsame ▸ hout, by simp; omega, hrs⟩
      · refine ⟨r :: rs, by simp [hout, hr], by simpa using hlen, fun x hx => ?_⟩
        rw [hok] at hhead
        cases rs with
        | nil => cases hx
        | cons y ys =>
          rcases List.mem_cons.1 hx with rfl | hx
          · exact hhead
          · exact hrs x hx
    · rcases step_reply hu with hsame | ⟨r, hr, -⟩
      · exact ⟨[], by simp [hsame], by simp, by simp⟩
      · exact ⟨[r], hr, by simp, by simp⟩

/-! ## The pipeline -/

/-- A command that succeeds is legal: an illegal one ends with code 6. -/
theorem wellFormed_of_exec_ok {i : Instr} {s t : State} (hx : exec i s = .next t) (hok : t.status = codeOk) :
    i.wellFormed s.nbuf = true := by
  obtain ⟨u, hu, ⟨-, rfl⟩ | ⟨hw, -⟩⟩ := exec_cases i s
  · obtain rfl := next_inj (hx.symm.trans hu)
    exact absurd hok (errCode_ne_ok .illegalCommand)
  · exact hw

/-- After a command that succeeds the host goes on with the rest of its run. -/
theorem hostRun_present_cons {i : Instr} {is : List Instr} {src : Option (List Byte)} {ok : Bool} {s t : State}
    (hx : exec i (s.present src ok []) = .next t) (hok : t.status = codeOk) :
    hostRun (present src ok (i :: is)) s = hostRun (present src ok is) t := by
  have hdec := encodeThenDecode _ i (wellFormed_of_exec_ok hx hok)
  have hstep : step { s with inbox := [.command (encode i) src ok] } = .next t :=
    (stepRunsDecodedCommand { s with inbox := [.command (encode i) src ok] } _ _ _ [] i rfl hdec).trans hx
  simp only [present, List.map_cons, hostRun, hstep, if_pos hok]

/-- BMP_DECODE of a stream that decodes (R85, R117). -/
theorem exec_bmpDecode_of_ok {rd : SlotIx} {s : State} {b : Buf} (hrd : rd.toNat < s.nbuf)
    (hdec : decodeBmp s.pbCap s.src = .ok b) :
    exec (.bmpDecode rd) s = .next ((s.setSlot rd (.buf b)).complete [] []) := by
  have hw : (Instr.bmpDecode rd).wellFormed s.nbuf = true := wellFormed_of_one_slot rfl rfl hrd
  rw [← State.store_ok, ← hdec]
  exact ifLegal_of_wf _ hw

/-- CONV_APPLY whose computation succeeds (R102, R117). -/
theorem exec_convApply_of_ok {rd rs : SlotIx} {k : List Word} {s : State} {b d : Buf} (hrd : rd.toNat < s.nbuf)
    (hne : rd ≠ rs) (hs : s.slot rs = .buf b) (hconv : convBuffer s.pbCap s.draws b k = .ok d) :
    exec (.convApply rd rs k) s =
      .next (((s.drawn (convDraws b k)).setSlot rd (.buf d)).complete [] []) := by
  have hw : (Instr.convApply rd rs k).wellFormed s.nbuf = true :=
    wellFormed_convApply hrd (State.lt_nbuf_of_slot hs) hne
  refine (ifLegal_of_wf _ hw).trans ?_
  rw [withBuffer_buf hs, hconv]
  rfl

/-- BMP_ENCODE of a stored buffer to a writable sink (R90, R117). -/
theorem exec_bmpEncode_of_ok {rs : SlotIx} {s : State} {b : Buf} (hs : s.slot rs = .buf b) (hok : s.snkOk = true) :
    exec (.bmpEncode rs) s = .next (s.complete [] (encodeBmp b)) := by
  have hw : (Instr.bmpEncode rs).wellFormed s.nbuf = true :=
    wellFormed_of_one_slot rfl rfl (State.lt_nbuf_of_slot hs)
  refine (ifLegal_of_wf _ hw).trans ?_
  rw [withBuffer_buf hs, if_pos hok]

/-- A convolution of a well-formed buffer with a kernel of a legal length succeeds (R98, R102). -/
theorem exists_convBuffer_of_legal {cap : Nat} {b : Buf} {k : List Word} (hb : b.wf cap = true) (d : Nat)
    (hk : k.length ∈ legalLengths) : ∃ r, convBuffer cap d b k = .ok r := by
  have hlegal : ∀ n ∈ legalLengths, kernelSide n ≠ .error .invalidKernel := by decide +kernel
  rcases convBuffer_cases hb d k with ⟨m, -, e⟩ | ⟨hbad, -⟩
  · exact ⟨_, e⟩
  · exact absurd hbad (hlegal _ hk)

/-- The run of CONVOLVE: each command succeeds on the state the one before it left (R68, R136). -/
theorem hostRun_convolve {s : State} {a b : SlotIx} {k : List Word} {bytes : List Byte} {img out : Buf}
    (ha : a.toNat < s.nbuf) (hb : b.toNat < s.nbuf) (hne : a ≠ b) (hdec : decodeBmp s.pbCap (some bytes) = .ok img)
    (hconv : convBuffer s.pbCap s.draws img k = .ok out) :
    hostRun (present (some bytes) true (convolve a b k)) s = .next
      (s.present (some bytes) true [] |>.setSlot a (.buf img) |>.complete [] []
        |>.drawn (convDraws img k) |>.setSlot b (.buf out) |>.complete [] [] |>.complete [] (encodeBmp out)) := by
  refine (hostRun_present_cons (exec_bmpDecode_of_ok ha hdec) rfl).trans ?_
  refine (hostRun_present_cons (exec_convApply_of_ok (b := img) (d := out) ?_ hne.symm ?_ ?_) rfl).trans ?_
  · simpa using hb
  · exact State.slot_setSlot_self _ _ _ ha
  · exact hconv
  refine (hostRun_present_cons (exec_bmpEncode_of_ok ?_ rfl) rfl).trans rfl
  exact State.slot_setSlot_self _ _ _ (by simpa using hb)

/-- Settles O58: the three commands succeed, and the two slots are different ones. -/
theorem pipelineResult : Obligations.PipelineResult := by
  intro s a b k bytes img ha hb hne hdec hk
  obtain ⟨out, hconv⟩ := exists_convBuffer_of_legal (decodeBmp_wf hdec) s.draws hk
  have hne' : b.toNat ≠ a.toNat := fun h => hne (BitVec.eq_of_toNat_eq h.symm)
  refine ⟨_, out, hconv, hostRun_convolve ha hb hne hdec hconv, ?_, ?_, ?_, rfl⟩
  · simp [codeOk, statusWord]
  · simp [hne', ha]
  · simp [hb]

end Sys2Proof.Machine
end

section
/-! SUPPORT and PROOFS. The PixelBuffer commands: their packets, what each does on a stored buffer, the pixel that PbGet
reads, and the laws of R78 and R80. -/

namespace Sys2Proof

/-- A header as a number: OPC, RD from bit 8, RS from bit 12 (R50). -/
theorem header_eq_ofNat (op : Opcode) (rd rs : SlotIx) :
    header op rd rs = BitVec.ofNat 32 (op.byte.toNat + rd.toNat * 256 + rs.toNat * 4096) := by
  have hop := op.byte.isLt
  have hrd := rd.isLt
  have hrs := rs.isLt
  apply BitVec.eq_of_toNat_eq
  simp only [header, BitVec.toNat_append, BitVec.toNat_ofNat]
  rw [← Nat.shiftLeft_add_eq_or_of_lt hop, ← Nat.shiftLeft_add_eq_or_of_lt hrs,
    ← Nat.shiftLeft_add_eq_or_of_lt (by omega)]
  omega

end Sys2Proof

namespace Sys2Proof.Machine

/-! ## The pixel that PbGet reads -/

/-- The clamp is a minimum and a maximum (R72). -/
theorem clampi_eq_max_min (v : Int) {n : Nat} (hn : 1 ≤ n) :
    clampi v 0 ((n : Int) - 1) = max 0 (min v ((n : Int) - 1)) := by
  unfold clampi
  split
  · omega
  · split <;> omega

/-- PbGet reads an existing element: the one at the coordinates clamped by minimum and maximum (R72). -/
theorem getElem?_eq_pbGet {cap : Nat} {b : Buf} (hb : b.wf cap = true) (x y : Int) :
    b.px[(max 0 (min y (b.height - 1))).toNat * b.width + (max 0 (min x (b.width - 1))).toNat]? =
      some (pbGet b x y) := by
  obtain ⟨hw, hh, -, -, hlen, -⟩ := (Buf.wf_iff cap b).1 hb
  have hx := clampi_bounds x hw
  have hy := clampi_bounds y hh
  have hlt := pxIndex_lt (w := b.width) (h := b.height) (x := (clampi x 0 (b.width - 1)).toNat)
    (y := (clampi y 0 (b.height - 1)).toNat) (by omega) (by omega)
  rw [← hlen] at hlt
  rw [← clampi_eq_max_min x hw, ← clampi_eq_max_min y hh]
  simp only [pbGet, pxAt, List.getD_eq_getElem?_getD, List.getElem?_eq_getElem hlt, Option.getD_some]
  exact List.getElem?_eq_getElem hlt

/-- PbGet sees a coordinate only through its clamp. -/
theorem pbGet_congr {b : Buf} {x y x' y' : Int}
    (hx : clampi x 0 ((b.width : Int) - 1) = clampi x' 0 ((b.width : Int) - 1))
    (hy : clampi y 0 ((b.height : Int) - 1) = clampi y' 0 ((b.height : Int) - 1)) : pbGet b x y = pbGet b x' y' := by
  simp only [pbGet, hx, hy]

/-- A coordinate before the first reads the first (R78). -/
theorem clampi_neg_eq_clampi_zero {v : Int} {n : Nat} (hn : 1 ≤ n) (hv : v < 0) :
    clampi v 0 ((n : Int) - 1) = clampi 0 0 ((n : Int) - 1) := by
  rw [clampi_of_mem (le_refl 0) (by omega)]
  exact if_pos hv

/-- A coordinate past the last reads the last (R78). -/
theorem clampi_ge_eq_clampi_last {v : Int} {n : Nat} (hn : 1 ≤ n) (hv : n ≤ v) :
    clampi v 0 ((n : Int) - 1) = clampi (n - 1) 0 ((n : Int) - 1) := by
  rw [clampi_of_mem (v := n - 1) (by omega) (by omega), clampi, if_neg (by omega), if_pos (by omega)]

/-- A well-formed 1 x 1 buffer has its one pixel everywhere (R78). -/
theorem px_eq_singleton_pbGet {cap : Nat} {b : Buf} (hb : b.wf cap = true) (hw : b.width = 1) (hh : b.height = 1)
    (x y : Int) : b.px = [pbGet b x y] := by
  obtain ⟨-, -, -, -, hlen, -⟩ := (Buf.wf_iff cap b).1 hb
  obtain ⟨c, hc⟩ := List.length_eq_one_iff.1 (show b.px.length = 1 by rw [hlen, hw, hh])
  have hmem := pbGet_mem hb x y
  rw [hc, List.mem_singleton] at hmem
  rw [hc, hmem]

/-- Settles O28: each law is one about the clamp of one axis. -/
theorem edgeClampLaws : Obligations.EdgeClampLaws := by
  intro cap b x y hb
  obtain ⟨hw, hh, -⟩ := (Buf.wf_iff cap b).1 hb
  exact ⟨fun hx => pbGet_congr (clampi_neg_eq_clampi_zero hw hx) rfl,
    fun hx => pbGet_congr (clampi_ge_eq_clampi_last hw hx) rfl,
    fun hy => pbGet_congr rfl (clampi_neg_eq_clampi_zero hh hy),
    fun hy => pbGet_congr rfl (clampi_ge_eq_clampi_last hh hy),
    pbGet_congr (clampi_neg_eq_clampi_zero hw (by omega)) (clampi_ge_eq_clampi_last hh (by omega)),
    fun h1 h2 => px_eq_singleton_pbGet hb h1 h2 x y⟩

/-! ## The commands on a stored buffer -/

/-- A legal command whose operand fetch finds a buffer runs on it (R71). -/
theorem ifLegal_withBuffer_buf {i : Instr} {s : State} {e : SlotIx} {b : Buf} (hs : s.slot e = .buf b)
    (huses : i.slotsExist s.nbuf = Instr.slotNamed s.nbuf e) (hdiff : i.slotsDiffer = true) (run : Buf → State) :
    ifLegal i s (withBuffer s e none run) = .next (run b) := by
  rw [ifLegal_of_wf _ (wellFormed_of_one_slot huses hdiff (State.lt_nbuf_of_slot hs)), withBuffer_buf hs]

section Stored

variable {s : State} {i : SlotIx} {b : Buf}

/-- PB_CREATE into an existing slot stores what PbCreate answers (R73). -/
theorem exec_pbCreate_of_lt (w h : Word) (hi : i.toNat < s.nbuf) :
    exec (.pbCreate i w h) s = .next (s.store i (pbCreate s.pbCap w.toInt h.toInt)) :=
  ifLegal_of_wf _ (wellFormed_of_one_slot rfl rfl hi)

/-- PB_GET of a stored buffer (R74). -/
theorem exec_pbGet_of_buf (x y : Word) (hs : s.slot i = .buf b) :
    exec (.pbGet i x y) s = .next (s.complete
      [(pbGet b x.toInt y.toInt).r, (pbGet b x.toInt y.toInt).g, (pbGet b x.toInt y.toInt).b] []) :=
  ifLegal_withBuffer_buf hs rfl rfl _

/-- PB_WIDTH of a stored buffer (R76). -/
theorem exec_pbWidth_of_buf (hs : s.slot i = .buf b) :
    exec (.pbWidth i) s = .next (s.complete [BitVec.ofNat 32 b.width] []) :=
  ifLegal_withBuffer_buf hs rfl rfl _

/-- PB_HEIGHT of a stored buffer (R77). -/
theorem exec_pbHeight_of_buf (hs : s.slot i = .buf b) :
    exec (.pbHeight i) s = .next (s.complete [BitVec.ofNat 32 b.height] []) :=
  ifLegal_withBuffer_buf hs rfl rfl _

/-- PB_SET of a stored buffer (R75). -/
theorem exec_pbSet_of_buf (x y r g c : Word) (hs : s.slot i = .buf b) :
    exec (.pbSet i x y r g c) s = .next
      (if inBounds b x.toInt y.toInt then
        (s.setSlot i (.buf (pxWrite b x.toInt.toNat y.toInt.toNat ⟨r, g, c⟩))).complete [] []
      else s.raise .outOfBounds none) :=
  ifLegal_withBuffer_buf hs rfl rfl _

end Stored

theorem inBounds_iff (b : Buf) (x y : Int) :
    inBounds b x y = true ↔ 0 ≤ x ∧ x < b.width ∧ 0 ≤ y ∧ y < b.height := by
  simp [inBounds, and_assoc]

/-- A legal dimension as a word is the same number whether read as unsigned or as signed (R76, R77). -/
theorem dimensionWord {n : Nat} (h1 : 1 ≤ n) (hmax : n ≤ Config.dimMax) :
    (BitVec.ofNat 32 n).toNat = n ∧ 1 ≤ (BitVec.ofNat 32 n).toInt := by
  have hdim : Config.dimMax = 2147483647 := by decide
  have hnat : (BitVec.ofNat 32 n).toNat = n := Nat.mod_eq_of_lt (by omega)
  refine ⟨hnat, ?_⟩
  rw [BitVec.toInt_eq_toNat_of_lt (by omega), hnat]
  exact_mod_cast h1

/-- A positive signed word is given back by its value as a natural number. -/
theorem ofNat_toNat_toInt {w : Word} (hw : 0 < w.toInt) : BitVec.ofNat 32 w.toInt.toNat = w := by
  have hnat : w.toInt.toNat = w.toNat := by
    have := w.isLt
    rw [BitVec.toInt_eq_toNat_cond] at hw ⊢
    split at hw <;> omega
  rw [hnat, BitVec.ofNat_toNat, BitVec.setWidth_eq]

/-- Settles O24: PbGet's clamp is a minimum and a maximum, and on a well-formed buffer it reads an existing element. -/
theorem pbGetResult : Obligations.PbGetResult := by
  intro s rs x y v hget hwf
  refine ⟨by simp [encode, header_eq_ofNat, Opcode.byte], ?_, ?_⟩
  · rintro rfl
    exact (emptySlotEndsCommand s rs hget).1 x y
  · rintro b rfl
    exact ⟨pbGet b x.toInt y.toInt, getElem?_eq_pbGet hwf _ _,
      exec_pbGet_of_buf x y (State.slot_of_getElem? hget)⟩

/-- Settles O26, by the equation of PB_WIDTH: a stored width is at least 1 and at most 2^31 - 1. -/
theorem pbWidthResult : Obligations.PbWidthResult := by
  intro s rs v hget hwf
  refine ⟨by simp [encode, header_eq_ofNat, Opcode.byte], ?_, ?_⟩
  · rintro rfl
    obtain ⟨-, -, hempty, -⟩ := emptySlotEndsCommand s rs hget
    exact hempty
  · rintro b rfl
    obtain ⟨hw, -, hmax, -⟩ := (Buf.wf_iff _ b).1 hwf
    obtain ⟨hnat, hint⟩ := dimensionWord hw hmax
    exact ⟨_, hnat, hint, exec_pbWidth_of_buf (State.slot_of_getElem? hget)⟩

/-- Settles O27, by the equation of PB_HEIGHT: a stored height is at least 1 and at most 2^31 - 1. -/
theorem pbHeightResult : Obligations.PbHeightResult := by
  intro s rs v hget hwf
  refine ⟨by simp [encode, header_eq_ofNat, Opcode.byte], ?_, ?_⟩
  · rintro rfl
    obtain ⟨-, -, -, hempty, -⟩ := emptySlotEndsCommand s rs hget
    exact hempty
  · rintro b rfl
    obtain ⟨-, hh, -, hmax, -⟩ := (Buf.wf_iff _ b).1 hwf
    obtain ⟨hnat, hint⟩ := dimensionWord hh hmax
    exact ⟨_, hnat, hint, exec_pbHeight_of_buf (State.slot_of_getElem? hget)⟩

/-- Settles O23, by the three answers of PbCreate. -/
theorem pbCreateResult : Obligations.PbCreateResult := by
  intro s rd w h hrd
  refine ⟨by simp [encode, header_eq_ofNat, Opcode.byte], ?_⟩
  rw [exec_pbCreate_of_lt w h hrd]
  rcases pbCreate_cases s.pbCap w.toInt h.toInt with ⟨hdim, e⟩ | ⟨hw, hh, hcap, e⟩ | ⟨hw, hh, hcap, e⟩
  · rw [e, if_pos hdim]
    rfl
  · rw [e, if_neg (by omega), if_pos hcap]
    rfl
  · rw [e, if_neg (by omega), if_neg (by omega)]
    rfl

/-- Settles O25: an Empty slot is O22's, and the bounds test of PB_SET is the statement's. -/
theorem pbSetResult : Obligations.PbSetResult := by
  intro s rd x y r g b v hget
  refine ⟨by simp [encode, header_eq_ofNat, Opcode.byte], ?_⟩
  cases v with
  | empty =>
    obtain ⟨-, hempty, -⟩ := emptySlotEndsCommand s rd hget
    exact hempty x y r g b
  | buf o =>
    rw [exec_pbSet_of_buf x y r g b (State.slot_of_getElem? hget)]
    simp only [inBounds_iff]
    split <;> rfl

/-! ## The laws of R80 -/

/-- Two pixels of one row-major sequence have one index only if they are the same pixel. -/
theorem pxIndex_inj {w x y x' y' : Nat} (hx : x < w) (hx' : x' < w) :
    pxIndex w x y = pxIndex w x' y' ↔ x = x' ∧ y = y' := by
  refine ⟨fun h => ?_, fun ⟨hxx, hyy⟩ => by rw [hxx, hyy]⟩
  unfold pxIndex at h
  have hmod := congrArg (· % w) h
  simp only [Nat.mul_add_mod_self_right, Nat.mod_eq_of_lt hx, Nat.mod_eq_of_lt hx'] at hmod
  subst hmod
  exact ⟨rfl, Nat.eq_of_mul_eq_mul_right (by omega) (Nat.add_right_cancel h)⟩

/-- PbGet of an in-bounds pixel after PxWrite: the colour written there, or what was there before (R80). -/
theorem pbGet_pxWrite {cap : Nat} {b : Buf} (hb : b.wf cap = true) {x y x' y' : Nat} (c : Color) (hx : x < b.width)
    (hx' : x' < b.width) (hy' : y' < b.height) :
    pbGet (pxWrite b x y c) x' y' = if x' = x ∧ y' = y then c else pbGet b x' y' := by
  obtain ⟨-, -, -, -, hlen, -⟩ := (Buf.wf_iff cap b).1 hb
  have hlt : pxIndex b.width x' y' < b.px.length := hlen ▸ pxIndex_lt hx' hy'
  rw [pbGet_inBounds _ (show x' < (pxWrite b x y c).width from hx') (show y' < (pxWrite b x y c).height from hy'),
    pbGet_inBounds b hx' hy']
  by_cases hsame : x' = x ∧ y' = y
  · obtain ⟨rfl, rfl⟩ := hsame
    simp [pxWrite, pxAt, List.getD_eq_getElem?_getD, hlt]
  · have hne : pxIndex b.width x y ≠ pxIndex b.width x' y' := fun h => hsame ((pxIndex_inj hx' hx).1 h.symm)
    simp only [pxWrite, pxAt, List.getD_eq_getElem?_getD, List.getElem?_set_ne hne, if_neg hsame]

/-- An error completion leaves no success in STATUS (R113, R118). -/
theorem State.raise_status_ne_ok (s : State) (e : ErrKind) (rd : Option SlotIx) : (s.raise e rd).status ≠ codeOk := by
  rw [State.raise_status]
  exact errCode_ne_ok e

/-- PB_SET succeeds only on an in-bounds pixel of a stored buffer, and writes it (R75). -/
theorem exec_pbSet_ok {s t : State} {rd : SlotIx} {x y r g b : Word} (h : exec (.pbSet rd x y r g b) s = .next t)
    (hok : t.status = codeOk) : ∃ o, s.slot rd = .buf o ∧ inBounds o x.toInt y.toInt = true ∧
      t = (s.setSlot rd (.buf (pxWrite o x.toInt.toNat y.toInt.toNat ⟨r, g, b⟩))).complete [] [] := by
  rcases execPbSet_cases h with ⟨-, rfl⟩ | ⟨-, hrun | ⟨o, -, -, rfl⟩ | ⟨-, rfl⟩⟩
  · exact absurd hok (State.raise_status_ne_ok _ _ _)
  · exact hrun
  · exact absurd hok (State.raise_status_ne_ok _ _ _)
  · exact absurd hok (State.raise_status_ne_ok _ _ _)

/-- Settles O29: both PB_GETs read the stored buffer at in-bounds coordinates, where PxWrite changed one element. -/
theorem getAfterSet : Obligations.GetAfterSet := by
  intro s t rd x y r g b x' y' o hget hwf hset hok hx0 hxw hy0 hyh
  have hs : s.slot rd = .buf o := State.slot_of_getElem? hget
  obtain ⟨o', ho', hin, rfl⟩ := exec_pbSet_ok hset hok
  obtain rfl : o = o' := Slot.buf.inj (hs.symm.trans ho')
  obtain ⟨h1, h2, h3, h4⟩ := (inBounds_iff _ _ _).1 hin
  refine ⟨_, _, _, exec_pbGet_of_buf x' y' (State.slot_setSlot_self s rd _ (State.lt_nbuf_of_slot hs)),
    exec_pbGet_of_buf x' y' hs, rfl, ?_⟩
  have hpx := pbGet_pxWrite hwf (y := y.toInt.toNat) ⟨r, g, b⟩ (show x.toInt.toNat < o.width by omega)
    (show x'.toInt.toNat < o.width by omega) (show y'.toInt.toNat < o.height by omega)
  have hsame : (x'.toInt.toNat = x.toInt.toNat ∧ y'.toInt.toNat = y.toInt.toNat) ↔ x' = x ∧ y' = y := by
    rw [← BitVec.toInt_inj, ← BitVec.toInt_inj]
    omega
  rw [Int.toNat_of_nonneg hx0, Int.toNat_of_nonneg hy0] at hpx
  simp only [hsame] at hpx
  rw [hpx]
  split <;> rfl

/-- PB_CREATE succeeds only on an existing slot, and stores there a well-formed, all-black buffer of the positive width
and height given (R73, R79). -/
theorem exec_pbCreate_ok {s t : State} {rd : SlotIx} {w h : Word} (hx : exec (.pbCreate rd w h) s = .next t)
    (hok : t.status = codeOk) : ∃ b, 0 < w.toInt ∧ 0 < h.toInt ∧ b.wf s.pbCap = true ∧ t.slot rd = .buf b ∧
      b = ⟨w.toInt.toNat, h.toInt.toNat, List.replicate (w.toInt.toNat * h.toInt.toNat) Color.black⟩ := by
  rcases execPbCreate_cases hx with ⟨-, rfl⟩ | ⟨hlegal, ⟨b, hb, rfl⟩ | ⟨e, -, rfl⟩⟩
  · exact absurd hok (State.raise_status_ne_ok _ _ _)
  · have hrd : rd.toNat < s.nbuf := by
      simpa [Instr.wellFormed, Instr.slotsExist, Instr.slotsDiffer, Instr.slotNamed] using hlegal
    have hwf := wf_of_pbCreate (s32_lt w) (s32_lt h) hb
    rcases pbCreate_cases s.pbCap (s32 w) (s32 h) with ⟨-, e⟩ | ⟨-, -, -, e⟩ | ⟨hw, hh, -, e⟩
    · cases hb.symm.trans e
    · cases hb.symm.trans e
    · exact ⟨b, hw, hh, hwf, State.slot_setSlot_self s rd _ hrd, by cases hb.symm.trans e; rfl⟩
  · exact absurd hok (State.raise_status_ne_ok _ _ _)

/-- Every PbGet of a well-formed buffer whose pixels are all of one colour answers that colour. -/
theorem pbGet_of_replicate {cap n : Nat} {b : Buf} {c : Color} (hb : b.wf cap = true)
    (hpx : b.px = List.replicate n c) (x y : Int) : pbGet b x y = c :=
  List.eq_of_mem_replicate (hpx ▸ pbGet_mem hb x y)

/-- Settles O30, by the equations of the three readers on the buffer that PB_CREATE stored. -/
theorem readAfterCreate : Obligations.ReadAfterCreate := by
  intro s t rd w h x y hx hok
  obtain ⟨b, hw, hh, hwf, hs, hb⟩ := exec_pbCreate_ok hx hok
  rw [exec_pbWidth_of_buf hs, exec_pbHeight_of_buf hs, exec_pbGet_of_buf x y hs,
    pbGet_of_replicate hwf (congrArg Buf.px hb), hb, ofNat_toNat_toInt hw, ofNat_toNat_toInt hh]
  exact ⟨rfl, rfl, rfl⟩

/-- The one command that has a destination and produces no buffer is PB_SET (R17, R55). -/
theorem eq_pbSet_of_rd? {i : Instr} {j : SlotIx} (hprod : i.producesBuffer ≠ true) (hrd : i.rd? = some j) :
    ∃ x y r g b, i = .pbSet j x y r g b := by
  cases i with
  | pbSet rd x y r g b =>
    cases hrd
    exact ⟨x, y, r, g, b, rfl⟩
  | pbCreate | bmpDecode | convApply => exact absurd rfl hprod
  | pbGet | pbWidth | pbHeight | bmpEncode => cases hrd

/-- PB_SET leaves a buffer of the same size in its slot (R17, R75). -/
theorem exec_pbSet_keeps_size {s t : State} {rd : SlotIx} {x y r g b : Word} {o : Buf}
    (hget : s.pb[rd.toNat]? = some (.buf o)) (h : exec (.pbSet rd x y r g b) s = .next t) :
    ∃ o', t.pb[rd.toNat]? = some (.buf o') ∧ o'.width = o.width ∧ o'.height = o.height := by
  obtain ⟨hlt, -⟩ := List.getElem?_eq_some_iff.1 hget
  obtain rfl := next_inj ((exec_pbSet_of_buf x y r g b (State.slot_of_getElem? hget)).symm.trans h)
  split
  · exact ⟨_, List.getElem?_set_self hlt, rfl, rfl⟩
  · exact ⟨o, hget, rfl, rfl⟩

/-- Settles O31: a command whose destination is another slot leaves slot j alone, and one that produces no buffer there
is PB_SET. -/
theorem sizeStableBetweenProducers : Obligations.SizeStableBetweenProducers := by
  intro i s t j b hget hnot h
  by_cases hrd : i.rd? = some j
  · obtain ⟨x, y, r, g, c, rfl⟩ := eq_pbSet_of_rd? (fun hprod => hnot ⟨hprod, hrd⟩) hrd
    exact exec_pbSet_keeps_size hget h
  · have hother : ∀ rd, i.rd? = some rd → rd.toNat ≠ j.toNat :=
      fun rd hi e => hrd (BitVec.eq_of_toNat_eq e ▸ hi)
    exact ⟨b, (exec_keeps_other_slots h hother).trans hget, rfl, rfl⟩

end Sys2Proof.Machine
end

section
/-! SUPPORT and PROOFS. Samples and channels: the value nearest to a sample, the quantiser, and what a channel loses. -/

namespace Sys2Proof.Machine

/-! ## Exact results -/

theorem signQ_false : signQ false = 1 := rfl

/-- A packed rounded significand below the threshold has the value of its units, with its sign. -/
theorem RoundsTo.fValue_packMag {x : ℚ} {u : ℤ} {m : ℕ} (h : RoundsTo x u m) (hx : x < 2 ^ 128 - 2 ^ 103)
    (neg : Bool) : fValue (packMag neg (magOf u m)) = signQ neg * (m * 2 ^ u) := by
  obtain ⟨m', e', hunpack, hval⟩ := h.unpack_packMag neg (h.magOf_lt_iff.2 hx)
  rw [fValue_of_unpack hunpack, signed_cast, mul_assoc, hval]

/-- A representable value is rounded to itself. -/
theorem RoundsTo.eq_of_representable {x : ℚ} {u : ℤ} {m : ℕ} (h : RoundsTo x u m) (hx : Representable x) :
    m * 2 ^ u = x := by
  rcases h.noNearer hx with hlt | heq | ⟨habs, -⟩
  · rw [sub_self, abs_zero] at hlt
    exact absurd hlt (abs_nonneg _).not_gt
  · exact heq.symm
  · rwa [sub_self, abs_zero, abs_eq_zero, sub_eq_zero] at habs

/-- Packing a representable value gives a finite pattern of that value. -/
theorem fValue_roundPack {n : ℕ} {k : ℤ} (h : Representable ((n : ℚ) * 2 ^ k))
    (hlt : (n : ℚ) * 2 ^ k < 2 ^ 128 - 2 ^ 103) :
    isFinite (roundPack false n k) = true ∧ fValue (roundPack false n k) = n * 2 ^ k := by
  have hround := StandsFor.roundPack_roundsCorrectly (.inl rfl : StandsFor n n) false k
  rw [signQ_false, one_mul] at hround
  refine ⟨(hround.1 ?_).1, ?_⟩
  · rwa [abs_of_nonneg (by positivity)]
  · rcases eq_or_ne n 0 with rfl | hn
    · rw [roundPack, if_pos rfl, fValue_of_unpack (unpack_fZero false)]
      simp [signed]
    · have hto := StandsFor.roundsTo (.inl rfl : StandsFor n n) hn k
      rw [roundPack_eq hn, hto.fValue_packMag hlt, hto.eq_of_representable h, signQ_false, one_mul]

/-- A significand of 2^24 is one of 2^23 with twice the unit. -/
theorem representable_natCast_mul {n : ℕ} {k : ℤ} (hn : n ≤ 2 ^ 24) (hk : -149 ≤ k) :
    Representable ((n : ℚ) * 2 ^ k) := by
  rcases hn.lt_or_eq with hlt | rfl
  · exact ⟨n, k, by rw [Nat.abs_cast]; exact_mod_cast hlt, hk, by norm_cast⟩
  · exact ⟨2 ^ 23, k + 1, by norm_num, by omega, by rw [zpow_add_one₀ two_ne_zero]; push_cast; ring⟩

/-! ## Consequences of being nearest -/

/-- A nearest value is at least as near as any other finite one. -/
theorem nearest.abs_sub_le {q : ℚ} {w v : Word} (h : nearest q w) (hv : isFinite v = true) :
    |fValue w - q| ≤ |fValue v - q| := by
  rcases h v hv with hlt | heq | ⟨habs, -⟩
  · exact hlt.le
  · rw [heq]
  · exact habs.le

/-- Rounding does not pass a finite value: what lies below it stays below. -/
theorem nearest.le_of_le {q : ℚ} {w v : Word} (h : nearest q w) (hv : isFinite v = true) (hq : q ≤ fValue v) :
    fValue w ≤ fValue v := by
  have := (le_abs_self _).trans (h.abs_sub_le hv)
  rw [abs_of_nonneg (by linarith)] at this
  linarith

/-- Rounding does not pass a finite value: what lies above it stays above. -/
theorem nearest.ge_of_ge {q : ℚ} {w v : Word} (h : nearest q w) (hv : isFinite v = true) (hq : fValue v ≤ q) :
    fValue v ≤ fValue w := by
  have := (neg_abs_le _).trans' (neg_le_neg (h.abs_sub_le hv))
  rw [abs_of_nonpos (by linarith)] at this
  linarith

/-- A rational number in [0, b] has a natural number up to b within one half. -/
theorem exists_nat_near {x : ℚ} {b : ℕ} (h0 : 0 ≤ x) (hb : x ≤ b) :
    ∃ n : ℕ, n ≤ b ∧ |(n : ℚ) - x| ≤ 1 / 2 := by
  have hle := Nat.floor_le (show 0 ≤ x + 1 / 2 by linarith)
  have hlt := Nat.lt_floor_add_one (x + 1 / 2)
  refine ⟨⌊x + 1 / 2⌋₊, ?_, abs_le.2 ⟨by linarith, by linarith⟩⟩
  rw [← Nat.lt_add_one_iff, Nat.floor_lt (by linarith)]
  push_cast
  linarith

/-- Up to `2^K` a nearest value is at most half a unit in the last place away, `2^(K-25)` (R12). -/
theorem nearest.abs_sub_le_half_unit {q : ℚ} {w : Word} {K : ℤ} (h : nearest q w) (h0 : 0 ≤ q) (hq : q ≤ 2 ^ K)
    (hK : -125 ≤ K) (hK' : K ≤ 127) : |fValue w - q| ≤ 2 ^ (K - 25) := by
  have hunit : (0 : ℚ) < 2 ^ (K - 24) := by positivity
  have hscale : (2 ^ 24 : ℕ) * (2 : ℚ) ^ (K - 24) = 2 ^ K := by
    rw [Nat.cast_pow, Nat.cast_ofNat, ← zpow_natCast, ← zpow_add₀ two_ne_zero]
    congr 1
    push_cast
    omega
  obtain ⟨n, hn, hnear⟩ :=
    exists_nat_near (div_nonneg h0 hunit.le) (b := 2 ^ 24) (by rwa [div_le_iff₀ hunit, hscale])
  have hlt : (n : ℚ) * 2 ^ (K - 24) < 2 ^ 128 - 2 ^ 103 := by
    calc (n : ℚ) * 2 ^ (K - 24) ≤ (2 ^ 24 : ℕ) * 2 ^ (K - 24) := by gcongr
      _ = 2 ^ K := hscale
      _ ≤ 2 ^ (127 : ℤ) := zpow_le_zpow_right₀ one_le_two hK'
      _ < 2 ^ 128 - 2 ^ 103 := by norm_num
  obtain ⟨hfin, hval⟩ := fValue_roundPack (representable_natCast_mul hn (by omega)) hlt
  calc |fValue w - q| ≤ |n * 2 ^ (K - 24) - q| := hval ▸ h.abs_sub_le hfin
    _ = |n - q / 2 ^ (K - 24)| * 2 ^ (K - 24) := by
      rw [← abs_of_pos hunit, ← abs_mul, abs_of_pos hunit, sub_mul, div_mul_cancel₀ _ hunit.ne']
    _ ≤ 1 / 2 * 2 ^ (K - 24) := by gcongr
    _ = 2 ^ (K - 25) := by
      rw [show K - 24 = K - 25 + 1 by ring, zpow_add_one₀ two_ne_zero]
      ring

/-! ## Samples as channels -/

theorem fValue_zero : fValue 0 = 0 := by
  rw [fValue_of_unpack (show unpack 0 = .fin false 0 (-149) by decide)]
  simp [signed]

theorem fValue_fOne : fValue fOne = 1 := by
  rw [fValue_of_unpack (show unpack fOne = .fin false (2 ^ 23) (-23) by decide)]
  norm_num [signed]

theorem fValue_f255 : fValue f255 = 255 := by
  rw [fValue_of_unpack (show unpack f255 = .fin false (255 * 2 ^ 16) (-16) by decide)]
  norm_num [signed]

/-- `of_u8(b)` is exactly `b` (R12). -/
theorem fValue_ofU8 (b : Byte) : isFinite (ofU8 b) = true ∧ fValue (ofU8 b) = b.toNat := by
  have hb := b.isLt
  have hb' : (b.toNat : ℚ) < 2 ^ 8 := by exact_mod_cast hb
  have h := fValue_roundPack (n := b.toNat) (k := 0) (representable_natCast_mul (by omega) (by omega))
    (by rw [zpow_zero, mul_one]; norm_num at hb' ⊢; linarith)
  rwa [zpow_zero, mul_one] at h

/-- A sample's quotient by 255 lies in [0, 1]. -/
theorem sample_div_mem (b : Byte) : (0 : ℚ) ≤ b.toNat / 255 ∧ (b.toNat / 255 : ℚ) ≤ 1 := by
  have hb : (b.toNat : ℚ) ≤ 255 := by exact_mod_cast Nat.le_of_lt_succ b.isLt
  exact ⟨by positivity, by rwa [div_le_one (by norm_num)]⟩

/-- `dec(b)` is the quotient `b / 255`, rounded once (R83). -/
theorem dec_nearest (b : Byte) : isFinite (dec b) = true ∧ nearest ((b.toNat : ℚ) / 255) (dec b) := by
  obtain ⟨hfin, hval⟩ := fValue_ofU8 b
  obtain ⟨h0, h1⟩ := sample_div_mem b
  have h := fdivRoundsToNearest 0 (ofU8 b) f255 hfin (by decide) (by rw [fValue_f255]; norm_num)
  rw [hval, fValue_f255] at h
  exact h.1 (by rw [abs_of_nonneg h0]; norm_num; linarith)

/-- A sample's channel lies in [0, 1], as 0.0 and 1.0 are values themselves (R83). -/
theorem dec_mem (b : Byte) : 0 ≤ fValue (dec b) ∧ fValue (dec b) ≤ 1 := by
  obtain ⟨h0, h1⟩ := sample_div_mem b
  have h := (dec_nearest b).2
  exact ⟨fValue_zero ▸ h.ge_of_ge (by decide) (fValue_zero ▸ h0),
    fValue_fOne ▸ h.le_of_le (by decide) (fValue_fOne ▸ h1)⟩

/-- A sample's channel is within half a unit in the last place below 1.0 of `b / 255`. -/
theorem dec_error (b : Byte) : |fValue (dec b) - b.toNat / 255| ≤ 1 / 2 ^ 25 := by
  obtain ⟨h0, h1⟩ := sample_div_mem b
  have h := (dec_nearest b).2.abs_sub_le_half_unit (K := 0) h0 (by simpa using h1) (by omega) (by omega)
  norm_num at h ⊢
  exact h

/-- Settles O37: rounding keeps the order of samples, which lie `1/255` apart. -/
theorem decResult : Obligations.DecResult := by
  refine ⟨fun b => ⟨(dec_nearest b).1, (dec_nearest b).2, dec_mem b⟩, fun a b hab => ?_, by decide⟩
  have ha := (abs_le.1 (dec_error a)).2
  have hb := (abs_le.1 (dec_error b)).1
  have hab' : (a.toNat : ℚ) + 1 ≤ b.toNat := by exact_mod_cast hab
  norm_num at ha hb
  linarith

/-! ## The quantiser -/

theorem fge_iff (a b : Word) : fge a b = true ↔ isNan a = false ∧ isNan b = false ∧ fKey b ≤ fKey a := by
  simp [fge, and_assoc]

theorem fgt_iff (a b : Word) : fgt a b = true ↔ isNan a = false ∧ isNan b = false ∧ fKey b < fKey a := by
  simp [fgt, and_assoc]

/-- The patterns that are neither below 0, nor above 1.0, nor NaNs: -0.0, and those from +0.0 up to 1.0. -/
theorem fge_zero_fOne_cases {c : Word} (h0 : fge c 0 = true) (h1 : fgt c fOne = false) :
    c = fZero true ∨ (fSign c = false ∧ c.toNat ≤ 0x3F800000) := by
  obtain ⟨hc, -, hkey⟩ := (fge_iff c 0).1 h0
  have hkey1 : fKey c ≤ fKey fOne := not_lt.1 fun hlt =>
    Bool.eq_false_iff.1 h1 ((fgt_iff c fOne).2 ⟨hc, by decide, hlt⟩)
  rw [show fKey 0 = 0 by decide] at hkey
  rw [show fKey fOne = 0x3F800000 by decide] at hkey1
  have hlt := c.isLt
  unfold fKey at hkey hkey1
  cases hs : fSign c with
  | false =>
    rw [hs] at hkey1
    rw [fSign_eq, decide_eq_false_iff_not] at hs
    have hmag : ((c.toNat % 2 ^ 31 : ℕ) : ℤ) ≤ 0x3F800000 := hkey1
    exact .inr ⟨rfl, by omega⟩
  | true =>
    rw [hs] at hkey
    rw [fSign_eq, decide_eq_true_eq] at hs
    have hmag : 0 ≤ -((c.toNat % 2 ^ 31 : ℕ) : ℤ) := hkey
    refine .inl (BitVec.eq_of_toNat_eq ?_)
    rw [fZero, packMag_toNat, if_pos rfl, Nat.zero_min]
    omega

/-- A significand of `a` bits whose unit weighs at most `2^-a` stays up to 1. -/
theorem mul_zpow_le_one {m a : ℕ} {e : ℤ} (hm : m ≤ 2 ^ a) (he : e ≤ -a) : (m : ℚ) * 2 ^ e ≤ 1 := by
  have hm' : (m : ℚ) ≤ 2 ^ a := by exact_mod_cast hm
  calc (m : ℚ) * 2 ^ e ≤ 2 ^ a * 2 ^ (-a : ℤ) := by gcongr; exact one_le_two
    _ = 1 := by rw [← zpow_natCast, ← zpow_add₀ two_ne_zero, add_neg_cancel, zpow_zero]

/-- The positive patterns up to 1.0's are those of the values up to 1. -/
theorem unpack_of_le_fOne {c : Word} (hs : fSign c = false) (hle : c.toNat ≤ 0x3F800000) :
    ∃ m e, unpack c = .fin false m e ∧ (m : ℚ) * 2 ^ e ≤ 1 := by
  have hfields := toNat_eq_fields c
  have hfrac := fFrac_lt c
  rw [hs, if_neg Bool.false_ne_true] at hfields
  unfold unpack
  rw [hs, if_neg (by omega)]
  split
  · exact ⟨_, _, rfl, mul_zpow_le_one (a := 24) (by omega) (by omega)⟩
  · refine ⟨_, _, rfl, ?_⟩
    rcases lt_or_ge (fExp c) 127 with hlt | hge
    · exact mul_zpow_le_one (a := 24) (by omega) (by omega)
    · exact mul_zpow_le_one (a := 23) (by omega) (by omega)

/-- A channel that is neither below 0, nor above 1.0, nor a NaN has a value in [0, 1]. -/
theorem fValue_mem {c : Word} (h0 : fge c 0 = true) (h1 : fgt c fOne = false) :
    isFinite c = true ∧ 0 ≤ fValue c ∧ fValue c ≤ 1 := by
  rcases fge_zero_fOne_cases h0 h1 with rfl | ⟨hs, hle⟩
  · rw [fValue_of_unpack (unpack_fZero true)]
    exact ⟨by decide, by simp [signed]⟩
  · obtain ⟨m, e, hu, hval⟩ := unpack_of_le_fOne hs hle
    rw [fValue_of_unpack hu, signed_cast, signQ_false, one_mul]
    exact ⟨(isFinite_iff c).2 ⟨_, _, _, hu⟩, by positivity, hval⟩

/-- Shifting a significand to its unit, fraction dropped, is its value's integer part. -/
theorem shift_eq_floor (m : ℕ) (e : ℤ) :
    ((if 0 ≤ e then m * 2 ^ e.toNat else m / 2 ^ (-e).toNat : ℕ) : ℤ) = ⌊(m : ℚ) * 2 ^ e⌋ := by
  split
  · next he =>
    obtain ⟨n, rfl⟩ := Int.eq_ofNat_of_zero_le he
    rw [Int.toNat_natCast, zpow_natCast, ← Int.floor_natCast (R := ℚ) (m * 2 ^ n)]
    push_cast
    rfl
  · next he =>
    obtain ⟨n, rfl⟩ : ∃ n : ℕ, e = -n := ⟨(-e).toNat, by omega⟩
    rw [neg_neg, Int.toNat_natCast, zpow_neg, zpow_natCast, ← div_eq_mul_inv]
    have := Rat.floor_natCast_div_natCast m (2 ^ n)
    push_cast at this ⊢
    exact this.symm

/-- The integer part of a value in [0, 256) (R12). -/
theorem truncU8_eq_floor {v : Word} (hfin : isFinite v = true) (h0 : 0 ≤ fValue v) (h1 : fValue v < 256) :
    ((truncU8 v).toNat : ℤ) = ⌊fValue v⌋ := by
  obtain ⟨neg, m, e, hu⟩ := (isFinite_iff v).1 hfin
  have hval : fValue v = m * 2 ^ e := by
    rw [← abs_of_nonneg h0, fValue_of_unpack hu, signed_cast, mul_assoc, abs_signQ_mul,
      abs_of_nonneg (by positivity)]
  have hfloor := shift_eq_floor m e
  have hlt : ⌊fValue v⌋ < 256 := Int.floor_lt.2 (by exact_mod_cast h1)
  rw [← hval] at hfloor
  rw [truncU8, hu, ← hfloor]
  dsimp only
  rw [BitVec.toNat_ofNat, Nat.mod_eq_of_lt (by omega)]

/-- The quantiser on a channel in [0, 1] (R84). -/
theorem quant_of_mem {c : Word} (h0 : fge c 0 = true) (h1 : fgt c fOne = false) :
    quant c = truncU8 (fmul 0 c f255) := by
  rw [quant, clamp01, if_neg (Bool.eq_false_iff.1 h1), if_pos h0]

/-- The product by 255.0 of a channel in [0, 1] is rounded once (R84). -/
theorem fmul_f255_nearest {c : Word} (hfin : isFinite c = true) (h0 : 0 ≤ fValue c) (h1 : fValue c ≤ 1) :
    isFinite (fmul 0 c f255) = true ∧ nearest (fValue c * 255) (fmul 0 c f255) := by
  have h := fmulRoundsToNearest 0 c f255 hfin (by decide)
  rw [fValue_f255] at h
  exact h.1 (by rw [abs_of_nonneg (by linarith)]; norm_num; linarith)

/-- The rounded product lies in [0, 255], as 0.0 and 255.0 are values themselves. -/
theorem fmul_f255_mem {c : Word} (hfin : isFinite c = true) (h0 : 0 ≤ fValue c) (h1 : fValue c ≤ 1) :
    0 ≤ fValue (fmul 0 c f255) ∧ fValue (fmul 0 c f255) ≤ 255 := by
  obtain ⟨-, h⟩ := fmul_f255_nearest hfin h0 h1
  exact ⟨fValue_zero ▸ h.ge_of_ge (by decide) (by rw [fValue_zero]; linarith),
    fValue_f255 ▸ h.le_of_le (by decide) (by rw [fValue_f255]; linarith)⟩

/-- Settles O39: the clamp answers 1.0, 0.0 or the channel, and the product of a channel in [0, 1] is in the range where
`trunc_u8` is the integer part. -/
theorem quantResult : Obligations.QuantResult := by
  intro c
  refine ⟨fun h => ?_, fun h => ?_, fun h0 h1 => ?_⟩
  · rw [quant, clamp01, if_pos h]
    decide
  · have hgt : fgt c fOne ≠ true := fun hgt => by
      obtain ⟨hc, -, hkey⟩ := (fgt_iff c fOne).1 hgt
      have hzero : fKey 0 ≤ fKey fOne := by decide
      exact Bool.eq_false_iff.1 h ((fge_iff c 0).2 ⟨hc, by decide, hzero.trans hkey.le⟩)
    rw [quant, clamp01, if_neg hgt, if_neg (Bool.eq_false_iff.1 h)]
    decide
  · obtain ⟨hfin, hc0, hc1⟩ := fValue_mem h0 h1
    obtain ⟨hp0, hp1⟩ := fmul_f255_mem hfin hc0 hc1
    rw [quant_of_mem h0 h1]
    exact truncU8_eq_floor (fmul_f255_nearest hfin hc0 hc1).1 hp0 (by linarith)

/-- Settles O38, over the 256 bytes. -/
theorem quantOfDec : Obligations.QuantOfDec := by
  unfold Obligations.QuantOfDec
  decide +kernel

/-- Settles O40: the product by 255.0 is off by at most `2^-17`, the truncation takes less than 1, and the quotient by
255 is off by at most `2^-25`. -/
theorem quantisationError : Obligations.QuantisationError := by
  intro c h0 h1
  have hle : fgt c fOne = false := Bool.eq_false_iff.2 fun hgt =>
    absurd ((fge_iff fOne c).1 h1).2.2 ((fgt_iff c fOne).1 hgt).2.2.not_ge
  obtain ⟨hfin, hc0, hc1⟩ := fValue_mem h0 hle
  have hmul := (fmul_f255_nearest hfin hc0 hc1).2.abs_sub_le_half_unit (K := 8) (by linarith)
    (by norm_num; linarith) (by omega) (by omega)
  have hfloor := (quantResult c).2.2 h0 hle
  have hdec := dec_error (quant c)
  have hq : ((quant c).toNat : ℚ) = (⌊fValue (fmul 0 c f255)⌋ : ℤ) := by exact_mod_cast hfloor
  have hlo := Int.floor_le (fValue (fmul 0 c f255))
  have hhi := Int.lt_floor_add_one (fValue (fmul 0 c f255))
  rw [← hq] at hlo hhi
  rw [abs_le] at hmul hdec
  rw [abs_lt]
  norm_num at hmul hdec ⊢
  constructor <;> linarith

end Sys2Proof.Machine
end

section
/-! SUPPORT and PROOFS. The wire format of BMP images: padding and offsets, the stream that BMP_DECODE reads as a closed
form of its bytes, and the bytes that BMP_ENCODE writes. -/

namespace Sys2Proof.Machine

/-! ## Padding and offsets -/

theorem stride_eq (w : Nat) : stride w = 3 * w + pad w := rfl

/-- Settles O36: three bytes for each pixel leave the row `W mod 4` bytes short of a multiple of 4. -/
theorem paddingLaws : Obligations.PaddingLaws := by
  intro w h
  have hpad : pad w = (4 - 3 * w % 4) % 4 := rfl
  have hstride := stride_eq w
  exact ⟨hpad, by omega, by omega, hstride, by omega, rfl⟩

/-- Every row ends within the image. -/
theorem row_end_le_filesize {w h y : Nat} (hy : y < h) : 54 + (y + 1) * stride w ≤ filesize w h :=
  Nat.add_le_add_left (Nat.mul_le_mul_right _ hy) _

/-- A sample byte lies in the image, among the first `3 * w` bytes of its row. -/
theorem sample_offset {w h x y i : Nat} (hx : x < w) (hy : y < h) (hi : i < 3) :
    54 + y * stride w + 3 * x + i < filesize w h ∧ (54 + y * stride w + 3 * x + i - 54) % stride w < 3 * w := by
  have hrow := row_end_le_filesize (w := w) hy
  have hstride := stride_eq w
  refine ⟨by rw [Nat.add_mul] at hrow; omega, ?_⟩
  rw [show 54 + y * stride w + 3 * x + i - 54 = y * stride w + (3 * x + i) by omega, Nat.mul_add_mod_self_right,
    Nat.mod_eq_of_lt (by omega)]
  omega

/-- The three samples of pixel `x` of row `y`, blue first (R63). -/
def pixelAt (src : List Byte) (w y x : Nat) : Color :=
  let o := 54 + y * stride w + 3 * x
  ⟨dec (src.getD (o + 2) 0), dec (src.getD (o + 1) 0), dec (src.getD o 0)⟩

/-! ## Reading the rows -/

/-- `collect` where every failure is `e`: all the answers, or `e`. -/
theorem collect_ite {ε α β : Type} (p : α → Prop) [DecidablePred p] (g : α → β) (e : ε) (as : List α) :
    collect (fun a => if p a then .ok (g a) else .error e) as =
      if ∀ a ∈ as, p a then .ok (as.map g) else .error e := by
  split
  · next h => exact collect_eq_map fun a ha => if_pos (h a ha)
  · next h =>
    simp only [not_forall] at h
    obtain ⟨a, ha, hpa⟩ := h
    refine collect_eq_error ⟨a, ha, e, if_neg hpa⟩ fun x _ e' he => ?_
    split at he
    · cases he
    · exact (Except.error.inj he).symm

/-- A pixel is read when its three bytes are there (R85). -/
theorem decodePixel_eq (src : List Byte) (w y x : Nat) : decodePixel src w y x =
    if 54 + y * stride w + 3 * x + 3 ≤ src.length then .ok (pixelAt src w y x) else .error .invalidFormat := by
  rw [decodePixel, show Config.pixOff = 54 from rfl]
  rcases memRead_cases src (54 + y * stride w + 3 * x) 3 with ⟨hle, e⟩ | ⟨hlt, e⟩
  · have hbyte (i : Nat) (hi : i < 3) := byteAt_memRead e hi
    rw [e, if_pos hle]
    simp only [hbyte 0 (by omega), hbyte 1 (by omega), hbyte 2 (by omega)]
    rfl
  · rw [e, if_neg (not_le.2 hlt)]

/-- A row is read when its pixels and its padding are there (R85, R87). -/
theorem decodeRow_eq (src : List Byte) (w y : Nat) : decodeRow src w y =
    if 54 + (y + 1) * stride w ≤ src.length then .ok ((List.range w).map (pixelAt src w y))
    else .error .invalidFormat := by
  have hend : 54 + (y + 1) * stride w = 54 + y * stride w + 3 * w + pad w := by
    rw [Nat.add_mul, stride_eq]
    omega
  rw [decodeRow, funext (decodePixel_eq src w y), collect_ite, hend, show Config.pixOff = 54 from rfl]
  by_cases hpx : ∀ x ∈ List.range w, 54 + y * stride w + 3 * x + 3 ≤ src.length
  · rw [if_pos hpx]
    rcases memRead_cases src (54 + y * stride w + 3 * w) (pad w) with ⟨hle, e⟩ | ⟨hlt, e⟩
    · rw [if_pos hle, e]
    · rw [if_neg (not_le.2 hlt), e]
  · have hshort : ¬54 + y * stride w + 3 * w + pad w ≤ src.length := fun hle => hpx fun x hx => by
      have := List.mem_range.1 hx
      omega
    rw [if_neg hpx, if_neg hshort]

/-- Rows of one length, laid end to end, are one sequence in row-major order (R34). -/
theorem flatMap_range_eq_map {α : Type} (f : Nat → Nat → α) (w h : Nat) :
    ((List.range h).flatMap fun y => (List.range w).map (f y)) =
      (List.range (w * h)).map fun k => f (k / w) (k % w) := by
  refine List.ext_getElem? fun k => ?_
  by_cases hk : k < w * h
  · have hw : 0 < w := Nat.pos_of_ne_zero fun e => by simp [e] at hk
    have := getElem?_flatMap_range f w (Nat.div_lt_of_lt_mul hk) (Nat.mod_lt k hw)
    rw [Nat.mul_comm, Nat.div_add_mod] at this
    simp [this, hk]
  · rw [List.getElem?_eq_none (by simpa [Nat.mul_comm] using hk), List.getElem?_eq_none (by simpa using hk)]

/-- The rows are read when the whole image is there (R87). -/
theorem decodeRows_eq (src : List Byte) (w : Nat) {h : Nat} (hh : 0 < h) : decodeRows src w h =
    if filesize w h ≤ src.length then
      .ok ((List.range (w * h)).map fun k => pixelAt src w (k / w) (k % w))
    else .error .invalidFormat := by
  have hrows : (∀ y ∈ List.range h, 54 + (y + 1) * stride w ≤ src.length) ↔ filesize w h ≤ src.length := by
    refine ⟨fun hall => ?_, fun hle y hy => (row_end_le_filesize (List.mem_range.1 hy)).trans hle⟩
    have := hall (h - 1) (List.mem_range.2 (by omega))
    rwa [Nat.sub_add_cancel hh] at this
  rw [decodeRows, funext (decodeRow_eq src w), collect_ite]
  by_cases hlen : filesize w h ≤ src.length
  · rw [if_pos (hrows.2 hlen), if_pos hlen, ← flatMap_range_eq_map, List.flatMap_def]
  · rw [if_neg (mt hrows.1 hlen), if_neg hlen]

/-! ## The outcome of BMP_DECODE -/

/-- The image of a stream: every pixel's three samples at their place (R87). -/
def imageAt (src : List Byte) (w h : Nat) : Buf :=
  ⟨w, h, (List.range (w * h)).map fun k => pixelAt src w (k / w) (k % w)⟩

/-- The closed form of a present stream (R85, R87). -/
theorem decodeOutcome_some (cap : Nat) (src : List Byte) : decodeOutcome cap (some src) =
    if src.length < 14 ∨ src.getD 0 0 ≠ 0x42 ∨ src.getD 1 0 ≠ 0x4D ∨ src.length < 54 then .error 2
    else if streamInt src 18 ≤ 0 ∨ streamInt src 22 ≤ 0 then .error 3
    else if (cap : Int) < streamInt src 18 * streamInt src 22 then .error 8
    else if src.length < filesize (streamInt src 18).toNat (streamInt src 22).toNat then .error 2
    else .ok (imageAt src (streamInt src 18).toNat (streamInt src 22).toNat) := rfl

/-- A stream whose headers gave its width and height: PbCreate's two errors come first, then the stream's length
(R85, R86). -/
theorem decodeImage_mapError (cap : Nat) (src : List Byte) (w h : Int) :
    (decodeImage cap src w h).mapError errCode =
      if w ≤ 0 ∨ h ≤ 0 then .error 3
      else if (cap : Int) < w * h then .error 8
      else if src.length < filesize w.toNat h.toNat then .error 2
      else .ok (imageAt src w.toNat h.toNat) := by
  unfold decodeImage
  rcases pbCreate_cases cap w h with ⟨hdim, e⟩ | ⟨hw, hh, hcap, e⟩ | ⟨hw, hh, hcap, e⟩
  · rw [e, if_pos hdim]
    rfl
  · rw [e, if_neg (by omega), if_pos hcap]
    rfl
  · rw [e, if_neg (by omega), if_neg (by omega)]
    simp only [decodeRows_eq src w.toNat (show 0 < h.toNat by omega)]
    by_cases hlen : filesize w.toNat h.toNat ≤ src.length
    · rw [if_pos hlen, if_neg (not_lt.2 hlen)]
      rfl
    · rw [if_neg hlen, if_pos (not_le.1 hlen)]
      rfl

/-- Four bytes, least significant first, as a signed number (R36, R38). -/
theorem s32_unle32 (b : List Byte) (o : Nat) :
    s32 (unle32 (byteAt b o) (byteAt b (o + 1)) (byteAt b (o + 2)) (byteAt b (o + 3))) = streamInt b o := by
  have h0 := (byteAt b o).isLt
  have h1 := (byteAt b (o + 1)).isLt
  have h2 := (byteAt b (o + 2)).isLt
  have h3 := (byteAt b (o + 3)).isLt
  rw [s32, unle32, BitVec.toInt_eq_toNat_cond, BitVec.toNat_ofNat]
  unfold streamInt byteAt at *
  dsimp only
  split <;> split <;> omega

/-- A field of the info header is the stream's signed number at the same place (R62). -/
theorem dimField_eq {src ih : List Byte} (h : memRead src 14 40 = .ok ih) {o : Nat}
    (ho : o + 3 < 40) : dimField ih o = streamInt src (14 + o) := by
  have hbyte (i : Nat) (hi : i < 40) : byteAt ih i = byteAt src (14 + i) := byteAt_memRead h hi
  rw [dimField, hbyte o (by omega), hbyte (o + 1) (by omega), hbyte (o + 2) (by omega), hbyte (o + 3) (by omega)]
  exact s32_unle32 src (14 + o)

/-- The headers of a present stream are its first 54 bytes, of which the signature is checked (R85, R88). -/
theorem decodeStream_mapError (cap : Nat) (src : List Byte) :
    (decodeStream cap src).mapError errCode =
      if src.length < 14 ∨ src.getD 0 0 ≠ 0x42 ∨ src.getD 1 0 ≠ 0x4D ∨ src.length < 54 then .error 2
      else (decodeImage cap src (streamInt src 18) (streamInt src 22)).mapError errCode := by
  rw [decodeStream, show Config.fileHdr = 14 from rfl, show Config.infoHdr = 40 from rfl]
  rcases memRead_cases src 0 14 with ⟨h14, e⟩ | ⟨h14, e⟩
  · have hbyte (i : Nat) (hi : i < 14) : byteAt ((src.drop 0).take 14) i = src.getD i 0 := by
      rw [byteAt_memRead e hi, Nat.zero_add, byteAt]
    simp only [e, hbyte 0 (by omega), hbyte 1 (by omega)]
    by_cases hsig : src.getD 0 0 ≠ 0x42 ∨ src.getD 1 0 ≠ 0x4D
    · rw [if_pos hsig, if_pos (by tauto)]
      rfl
    · rw [if_neg hsig]
      rcases memRead_cases src 14 40 with ⟨h54, e'⟩ | ⟨h54, e'⟩
      · rw [e', if_neg (by simp only [not_or] at hsig ⊢; exact ⟨by omega, hsig.1, hsig.2, by omega⟩)]
        simp only [dimField_eq e' (o := 4) (by omega), dimField_eq e' (o := 8) (by omega)]
      · rw [e', if_pos (by omega)]
        rfl
  · rw [e, if_pos (by omega)]
    rfl

/-- BMP_DECODE's computation is the closed form of SRC, its errors by their codes (R85, R87, R113). -/
theorem decodeBmp_mapError (cap : Nat) (src : Option (List Byte)) :
    (decodeBmp cap src).mapError errCode = decodeOutcome cap src := by
  cases src with
  | none => rfl
  | some b =>
    rw [decodeBmp, decodeStream_mapError, decodeImage_mapError, decodeOutcome_some]

theorem mapError_injective {ε δ α : Type} {f : ε → δ} (hf : Function.Injective f) :
    Function.Injective (Except.mapError f : Except ε α → Except δ α) := by
  rintro (e | a) (e' | a') h <;> simp_all [Except.mapError, hf.eq_iff]

/-- Streams with one outcome decode alike: a code names its error (R113). -/
theorem decodeBmp_congr {cap : Nat} {src src' : Option (List Byte)}
    (h : decodeOutcome cap src = decodeOutcome cap src') : decodeBmp cap src = decodeBmp cap src' := by
  rw [← decodeBmp_mapError, ← decodeBmp_mapError] at h
  exact mapError_injective (fun _ _ => errCode_injective) h

theorem decodeBmp_eq_ok_iff {cap : Nat} {src : Option (List Byte)} {b : Buf} :
    decodeBmp cap src = .ok b ↔ decodeOutcome cap src = .ok b := by
  rw [← decodeBmp_mapError]
  cases decodeBmp cap src <;> simp [Except.mapError]

/-- Settles O32: the command stores what its computation answers, and that is the closed form of SRC. -/
theorem bmpDecodeResult : Obligations.BmpDecodeResult := by
  intro s rd hrd
  refine ⟨by simp [encode, header_eq_ofNat, Opcode.byte], ?_⟩
  have hexec : exec (.bmpDecode rd) s = .next (s.store rd (decodeBmp s.pbCap s.src)) :=
    ifLegal_of_wf _ (wellFormed_of_one_slot rfl rfl hrd)
  rw [hexec, ← decodeBmp_mapError]
  cases decodeBmp s.pbCap s.src with
  | ok b => rfl
  | error e => cases e <;> rfl

/-! ## What decode ignores -/

theorem getD_congr {b b' : List Byte} {o : Nat} (h : b'[o]? = b[o]?) : b'.getD o 0 = b.getD o 0 := by
  rw [List.getD_eq_getElem?_getD, List.getD_eq_getElem?_getD, h]

theorem streamInt_congr {b b' : List Byte} {o : Nat} (h : ∀ i < 4, b'[o + i]? = b[o + i]?) :
    streamInt b' o = streamInt b o := by
  have h0 : b'.getD o 0 = b.getD o 0 := getD_congr (h 0 (by omega))
  rw [streamInt, h0, getD_congr (h 1 (by omega)), getD_congr (h 2 (by omega)), getD_congr (h 3 (by omega))]
  rfl

/-- Two streams that agree on the samples hold one image. -/
theorem imageAt_congr {b b' : List Byte} {w h : Nat}
    (hs : ∀ o, 54 ≤ o → o < filesize w h → (o - 54) % stride w < 3 * w → b'[o]? = b[o]?) :
    imageAt b' w h = imageAt b w h := by
  refine congrArg (Buf.mk w h) (List.map_congr_left fun k hk => ?_)
  have hk : k < w * h := List.mem_range.1 hk
  have hw : 0 < w := Nat.pos_of_ne_zero fun e => by simp [e] at hk
  have hsample (i : Nat) (hi : i < 3) := getD_congr <|
    (sample_offset (Nat.mod_lt k hw) (Nat.div_lt_of_lt_mul hk) hi).elim (hs _ (by omega))
  have h0 : b'.getD (54 + k / w * stride w + 3 * (k % w)) 0 = b.getD _ 0 := hsample 0 (by omega)
  rw [pixelAt, hsample 2 (by omega), hsample 1 (by omega), h0]
  rfl

/-- Settles O33: the closed form reads nothing else, and compares the length with 54 and with the image's only. -/
theorem decodeIgnoresOtherBytes : Obligations.DecodeIgnoresOtherBytes := by
  rintro cap b b' w h rfl rfl hlen hsame
  have himage := imageAt_congr fun o h1 h2 h3 => hsame o (.inr (.inr ⟨h1, h2, h3⟩))
  have hwidth : streamInt b' 18 = streamInt b 18 :=
    streamInt_congr fun i hi => hsame _ (.inr (.inl (by omega)))
  have hheight : streamInt b' 22 = streamInt b 22 :=
    streamInt_congr fun i hi => hsame _ (.inr (.inl (by omega)))
  have hshorter (n : Nat) (hn : n ≤ filesize (streamInt b 18).toNat (streamInt b 22).toNat) :
      b'.length < n ↔ b.length < n := by omega
  have h54 : 54 ≤ filesize (streamInt b 18).toNat (streamInt b 22).toNat := Nat.le_add_right _ _
  refine decodeBmp_congr ?_
  simp only [decodeOutcome_some, hwidth, hheight, himage, getD_congr (hsame 0 (by omega)),
    getD_congr (hsame 1 (by omega)), hshorter 14 (by omega), hshorter 54 h54, hshorter _ le_rfl]

/-! ## The bytes of BMP_ENCODE -/

/-- Settles O34: an Empty slot is O22's, and on a stored buffer the command asks only whether the sink is writable. -/
theorem bmpEncodeResult : Obligations.BmpEncodeResult := by
  intro s rs v hget
  refine ⟨by simp [encode, header_eq_ofNat, Opcode.byte], ?_⟩
  cases v with
  | empty =>
    obtain ⟨-, -, -, -, hempty, -⟩ := emptySlotEndsCommand s rs hget
    exact hempty
  | buf b =>
    refine (ifLegal_withBuffer_buf (State.slot_of_getElem? hget) rfl rfl _).trans ?_
    dsimp only
    split <;> rfl

/-- The two headers, field by field (R61, R62). -/
theorem fileHeader_append_infoHeader (w h : Nat) : fileHeader w h ++ infoHeader w h = headerBytes w h := by
  simp [fileHeader, infoHeader, headerBytes, le32, le16, List.range_succ, Config.pixOff, Config.infoHdr]

theorem length_headerBytes (w h : Nat) : (headerBytes w h).length = 54 := by
  simp [headerBytes]

/-- An encoded image is its headers and its rows (R90). -/
theorem encodeBmp_eq (b : Buf) :
    encodeBmp b = headerBytes b.width b.height ++ (List.range b.height).flatMap (encodeRow b) := by
  rw [encodeBmp, fileHeader_append_infoHeader]

/-- Element `r * n + c` of blocks of length `n`. -/
theorem getElem?_flatMap_of_length {α : Type} {f : Nat → List α} {n : Nat} (hf : ∀ r, (f r).length = n)
    {h r c : Nat} (hr : r < h) (hc : c < n) : ((List.range h).flatMap f)[r * n + c]? = (f r)[c]? := by
  induction h with
  | zero => omega
  | succ h ih =>
    have hlen : ((List.range h).flatMap f).length = h * n := by simp [hf]
    rw [List.range_succ, List.flatMap_append]
    rcases Nat.lt_succ_iff_lt_or_eq.1 hr with hlt | rfl
    · have hrow : (r + 1) * n ≤ h * n := Nat.mul_le_mul_right _ hlt
      rw [Nat.add_mul] at hrow
      rw [List.getElem?_append_left (by omega)]
      exact ih hlt
    · rw [← hlen, List.getElem?_append_right (Nat.le_add_right _ _), Nat.add_sub_cancel_left]
      simp

theorem length_encodeRow (b : Buf) (y : Nat) : (encodeRow b y).length = stride b.width := by
  simp [encodeRow, encodePixel, stride, Nat.mul_comm]

theorem length_encodeBmp (b : Buf) : (encodeBmp b).length = filesize b.width b.height := by
  simp [encodeBmp_eq, length_headerBytes, length_encodeRow, filesize, Config.pixOff]

/-- Byte `j` of row `y` of an encoded image (R87, R95). -/
theorem encodeBmp_getElem?_row (b : Buf) {y j : Nat} (hy : y < b.height) (hj : j < stride b.width) :
    (encodeBmp b)[54 + y * stride b.width + j]? = (encodeRow b y)[j]? := by
  rw [encodeBmp_eq, Nat.add_assoc, ← length_headerBytes b.width b.height, List.getElem?_append_right (by omega),
    Nat.add_sub_cancel_left]
  exact getElem?_flatMap_of_length (length_encodeRow b) hy hj

/-- The sample bytes of row `y` of an encoded image. -/
def rowSamples (b : Buf) (y : Nat) : List Byte :=
  (List.range b.width).flatMap fun x => encodePixel (pxAt b.px (pxIndex b.width x y))

theorem encodeRow_eq (b : Buf) (y : Nat) : encodeRow b y = rowSamples b y ++ List.replicate (pad b.width) 0 := rfl

theorem length_rowSamples (b : Buf) (y : Nat) : (rowSamples b y).length = 3 * b.width := by
  simp [rowSamples, encodePixel, Nat.mul_comm]

theorem encodeRow_getElem?_sample (b : Buf) (y : Nat) {x i : Nat} (hx : x < b.width) (hi : i < 3) :
    (encodeRow b y)[3 * x + i]? = (encodePixel (pxAt b.px (pxIndex b.width x y)))[i]? := by
  rw [encodeRow_eq, List.getElem?_append_left (by rw [length_rowSamples]; omega), Nat.mul_comm]
  exact getElem?_flatMap_of_length (f := fun x => encodePixel (pxAt b.px (pxIndex b.width x y)))
    (fun _ => rfl) hx hi

theorem encodeRow_getElem?_padding (b : Buf) (y : Nat) {j : Nat} (hj : j < pad b.width) :
    (encodeRow b y)[3 * b.width + j]? = some 0 := by
  rw [encodeRow_eq, ← length_rowSamples b y, List.getElem?_append_right (Nat.le_add_right _ _),
    Nat.add_sub_cancel_left, List.getElem?_replicate_of_lt hj]

/-- Sample `i` of pixel (x, y) of an encoded image, blue first (R87, R93). -/
theorem encodeBmp_getElem?_sample (b : Buf) {x y i : Nat} (hx : x < b.width) (hy : y < b.height) (hi : i < 3) :
    (encodeBmp b)[54 + y * stride b.width + 3 * x + i]? =
      (encodePixel (pxAt b.px (pxIndex b.width x y)))[i]? := by
  have hstride := stride_eq b.width
  rw [Nat.add_assoc (54 + _), encodeBmp_getElem?_row b hy (by omega), encodeRow_getElem?_sample b y hx hi]

/-- Settles O35, part by part: the length, the headers, a sample and a padding byte. -/
theorem encodedBytes : Obligations.EncodedBytes := by
  intro cap b _
  have hstride := stride_eq b.width
  refine ⟨length_encodeBmp b, ?_, fun x y c hx hy hc => ?_, fun y j hy hj => ?_⟩
  · rw [encodeBmp_eq, List.take_left' (length_headerBytes _ _)]
  · have hpx : pxAt b.px (pxIndex b.width x y) = c := by
      rw [pxAt, pxIndex, List.getD_eq_getElem?_getD, hc, Option.getD_some]
    have hsample (i : Nat) (hi : i < 3) := hpx ▸ encodeBmp_getElem?_sample b hx hy hi
    exact ⟨hsample 0 (by omega), hsample 1 (by omega), hsample 2 (by omega)⟩
  · rw [Nat.add_assoc (54 + _), encodeBmp_getElem?_row b hy (by omega), encodeRow_getElem?_padding b y hj]

/-! ## Decoding an encoded image -/

/-- Four bytes of a number, least significant first (R36). -/
def leBytes (v : Nat) : List Byte := (List.range 4).map fun i => BitVec.ofNat 8 (v / 256 ^ i)

/-- Four such bytes of a number below 2^31 are read as that number (R36). -/
theorem streamInt_of_leBytes {b : List Byte} {o v : Nat} (hv : v < 2 ^ 31) (h : (b.drop o).take 4 = leBytes v) :
    streamInt b o = v := by
  have hbyte (i : Nat) (hi : i < 4) : (b.getD (o + i) 0).toNat = v / 256 ^ i % 256 := by
    have hget : b[o + i]? = some (BitVec.ofNat 8 (v / 256 ^ i)) := by
      rw [← List.getElem?_drop, ← List.getElem?_take_of_lt hi, h]
      simp [leBytes, hi]
    rw [List.getD_eq_getElem?_getD, hget, Option.getD_some, BitVec.toNat_ofNat]
  have h0 : (b.getD o 0).toNat = v % 256 := by simpa using hbyte 0 (by omega)
  have hsum : v % 256 + 256 * (v / 256 ^ 1 % 256) + 65536 * (v / 256 ^ 2 % 256) +
      16777216 * (v / 256 ^ 3 % 256) = v := by omega
  rw [streamInt, h0, hbyte 1 (by omega), hbyte 2 (by omega), hbyte 3 (by omega), hsum]
  exact if_pos hv

/-- The width and height fields of the headers (R62). -/
theorem streamInt_headerBytes {w h : Nat} (hw : w ≤ Config.dimMax) (hh : h ≤ Config.dimMax) :
    streamInt (headerBytes w h) 18 = w ∧ streamInt (headerBytes w h) 22 = h := by
  have hdim : Config.dimMax < 2 ^ 31 := by decide
  exact ⟨streamInt_of_leBytes (by omega) rfl, streamInt_of_leBytes (by omega) rfl⟩

/-- The width and height fields of an encoded image are its own (R92). -/
theorem streamInt_encodeBmp {cap : Nat} {b : Buf} (hb : b.wf cap = true) :
    streamInt (encodeBmp b) 18 = b.width ∧ streamInt (encodeBmp b) 22 = b.height := by
  obtain ⟨-, -, hw, hh, -⟩ := (Buf.wf_iff cap b).1 hb
  have hheader (o : Nat) (ho : o + 3 < 54) :
      streamInt (encodeBmp b) o = streamInt (headerBytes b.width b.height) o :=
    streamInt_congr fun i hi => by
      rw [encodeBmp_eq, List.getElem?_append_left (by rw [length_headerBytes]; omega)]
  rw [hheader 18 (by omega), hheader 22 (by omega)]
  exact streamInt_headerBytes hw hh

/-- The samples of an encoded pixel decode to `dec(quant(c))` of its channels (R96). -/
theorem pixelAt_encodeBmp (b : Buf) {x y : Nat} (hx : x < b.width) (hy : y < b.height) :
    pixelAt (encodeBmp b) b.width y x = (pxAt b.px (pxIndex b.width x y)).map fun c => dec (quant c) := by
  have hsample {i : Nat} {v : Byte} (hi : i < 3)
      (hv : (encodePixel (pxAt b.px (pxIndex b.width x y)))[i]? = some v) :
      (encodeBmp b).getD (54 + y * stride b.width + 3 * x + i) 0 = v := by
    rw [List.getD_eq_getElem?_getD, encodeBmp_getElem?_sample b hx hy hi, hv, Option.getD_some]
  have h0 : (encodeBmp b).getD (54 + y * stride b.width + 3 * x) 0 = _ := hsample (i := 0) (by omega) rfl
  rw [pixelAt, hsample (i := 2) (by omega) rfl, hsample (i := 1) (by omega) rfl, h0]
  rfl

/-- The image that an encoded buffer holds (R96). -/
theorem imageAt_encodeBmp {cap : Nat} {b : Buf} (hb : b.wf cap = true) :
    imageAt (encodeBmp b) b.width b.height =
      ⟨b.width, b.height, b.px.map (Color.map fun c => dec (quant c))⟩ := by
  obtain ⟨hw, -, -, -, hlen, -⟩ := (Buf.wf_iff cap b).1 hb
  refine congrArg (Buf.mk _ _) (List.ext_getElem (by simp [hlen]) fun k hk hk' => ?_)
  have hlt : k < b.width * b.height := by simpa using hk
  have hindex : pxIndex b.width (k % b.width) (k / b.width) = k := Nat.div_add_mod' k b.width
  rw [List.getElem_map, List.getElem_map, List.getElem_range,
    pixelAt_encodeBmp b (Nat.mod_lt k hw) (Nat.div_lt_of_lt_mul hlt), hindex, pxAt,
    List.getD_eq_getElem _ _ (hlen ▸ hlt)]

/-- Decoding an encoded image passes every test, and gives every channel `dec(quant(c))` (R96). -/
theorem decodeBmp_encodeBmp {cap : Nat} {b : Buf} (hb : b.wf cap = true) :
    decodeBmp cap (some (encodeBmp b)) =
      .ok ⟨b.width, b.height, b.px.map (Color.map fun c => dec (quant c))⟩ := by
  obtain ⟨hw, hh, -, -, -, hcap⟩ := (Buf.wf_iff cap b).1 hb
  obtain ⟨hwidth, hheight⟩ := streamInt_encodeBmp hb
  have hlen := length_encodeBmp b
  have h54 : 54 ≤ filesize b.width b.height := Nat.le_add_right _ _
  have hheaders : ¬((encodeBmp b).length < 14 ∨ (encodeBmp b).getD 0 0 ≠ 0x42 ∨ (encodeBmp b).getD 1 0 ≠ 0x4D ∨
      (encodeBmp b).length < 54) := by
    simp only [not_or, not_not]
    exact ⟨by omega, rfl, rfl, by omega⟩
  have hcap' : (b.width : Int) * b.height ≤ cap := by exact_mod_cast hcap
  rw [decodeBmp_eq_ok_iff, decodeOutcome_some, hwidth, hheight, if_neg hheaders, if_neg (by omega),
    if_neg (by omega), Int.toNat_natCast, Int.toNat_natCast, if_neg (by omega), imageAt_encodeBmp hb]

/-- Settles O41: BMP_ENCODE changes no slot, and its bytes decode as `decodeBmp_encodeBmp` says. -/
theorem decodeOfEncode : Obligations.DecodeOfEncode := by
  intro s rs rd b hget hwf hrd hok
  refine ⟨_, encodeBmp b, exec_bmpEncode_of_ok (State.slot_of_getElem? hget) hok, rfl, ?_⟩
  exact exec_bmpDecode_of_ok (s := { s.complete [] (encodeBmp b) with src := some (encodeBmp b) }) hrd
    (decodeBmp_encodeBmp hwf)

/-- What BMP_DECODE stores is the image of some stream (R87). -/
theorem exists_imageAt_of_decodeBmp {cap : Nat} {src : Option (List Byte)} {b : Buf} (h : decodeBmp cap src = .ok b) :
    ∃ bytes w h, b = imageAt bytes w h := by
  rw [decodeBmp_eq_ok_iff] at h
  cases src with
  | none => cases h
  | some bytes =>
    rw [decodeOutcome_some] at h
    split_ifs at h
    exact ⟨bytes, _, _, (Except.ok.inj h).symm⟩

/-- Encoding and decoding again leave a decoded colour as it is (R94). -/
theorem map_dec_quant_pixelAt (src : List Byte) (w y x : Nat) :
    (pixelAt src w y x).map (fun c => dec (quant c)) = pixelAt src w y x := by
  simp [pixelAt, Color.map, quantOfDec _]

/-- Settles O42: decoding the encoding gives `dec(quant(c))` of channels that are each some `dec(b)`, which O38 leaves
as they are. -/
theorem decodeEncodeDecode : Obligations.DecodeEncodeDecode := by
  intro cap src b h
  rw [decodeBmp_encodeBmp (decodeBmp_wf h)]
  obtain ⟨bytes, w, h', rfl⟩ := exists_imageAt_of_decodeBmp h
  simp [imageAt, Function.comp_def, map_dec_quant_pixelAt]

end Sys2Proof.Machine
end

section
/-! SUPPORT. The arithmetic of a convolution's sums: what is exact in a product by 1.0 and a sum with +0.0, where a zero
or a NaN in a sum comes from, and sums of terms added in order. -/

namespace Sys2Proof.Machine

/-! ## Equal up to NaN -/

theorem sameUpToNan_trans {a b c : Word} (hab : sameUpToNan a b = true) (hbc : sameUpToNan b c = true) :
    sameUpToNan a c = true := by
  rw [sameUpToNan_iff] at *
  rcases hab with rfl | ⟨ha, hb⟩
  · exact hbc
  · rcases hbc with rfl | ⟨-, hc⟩
    · exact .inr ⟨ha, hb⟩
    · exact .inr ⟨ha, hc⟩

/-- A NaN result is the same, up to NaN, as any NaN. -/
theorem sameUpToNan_nanOr_none {w : Word} (d : Nat) (hw : unpack w = .nan) :
    sameUpToNan w (nanOr d none) = true :=
  (sameUpToNan_iff _ _).2 (.inr ⟨(isNan_iff w).2 hw, isNan_quietNan d⟩)

/-! ## Values that rounding keeps -/

/-- A finite pattern is the packing of its significand and unit, and has 24 significant bits unless its unit is the
subnormal one (R53). -/
theorem packMag_of_unpack {w : Word} {neg : Bool} {m : Nat} {e : Int} (h : unpack w = .fin neg m e) :
    packMag neg (magOf e m) = w ∧ (e = -149 ∨ 2 ^ 23 ≤ m) := by
  have hw : packMag neg (fExp w * 2 ^ 23 + fFrac w) = w := by
    rw [← fSign_of_fin h]
    exact packMag_fields (not_isNan_of_isFinite ((isFinite_iff w).2 ⟨_, _, _, h⟩))
  suffices magOf e m = fExp w * 2 ^ 23 + fFrac w ∧ (e = -149 ∨ 2 ^ 23 ≤ m) from ⟨this.1 ▸ hw, this.2⟩
  revert h
  unfold magOf
  fun_cases unpack w <;> simp <;> omega

theorem log2_mul_two_pow {m : Nat} (hm : m ≠ 0) (j : Nat) : (m * 2 ^ j).log2 = m.log2 + j := by
  rw [Nat.log2_eq_iff (by positivity), add_right_comm, pow_add, pow_add]
  exact ⟨Nat.mul_le_mul_right _ (Nat.log2_self_le hm), Nat.mul_lt_mul_of_pos_right Nat.lt_log2_self (by positivity)⟩

/-- The unit of a pattern's value is the pattern's own, however far its significand is shifted up. -/
theorem ulpExp_of_unpack {w : Word} {neg : Bool} {m : Nat} {e : Int} (h : unpack w = .fin neg m e) (hm : m ≠ 0)
    (j : Nat) : ulpExp (m * 2 ^ j) (e - j) = e := by
  obtain ⟨hlt, he⟩ := unpack_bounds h
  have hlog : m.log2 < 24 := (Nat.log2_lt hm).2 hlt
  have hnormal : e = -149 ∨ 23 ≤ m.log2 := (packMag_of_unpack h).2.imp_right (Nat.le_log2 hm).2
  rw [ulpExp, log2_mul_two_pow hm]
  push_cast
  omega

/-- The value of a pattern is packed as that pattern, however far its significand is shifted up. -/
theorem roundPack_of_unpack {w : Word} {neg : Bool} {m : Nat} {e : Int} (h : unpack w = .fin neg m e) (j : Nat) :
    roundPack neg (m * 2 ^ j) (e - j) = w := by
  rcases eq_or_ne m 0 with rfl | hm
  · rw [Nat.zero_mul, roundPack, if_pos rfl, eq_fZero_of_unpack h]
  · have hsig : significand (m * 2 ^ j) (e - j) = m := by
      rw [significand, ulpExp_of_unpack h hm, sub_sub_cancel, Int.toNat_natCast, roundShift_exact]
      split
      · obtain rfl : j = 0 := by omega
        simp
      · rfl
    rw [roundPack_eq (by positivity), hsig, ulpExp_of_unpack h hm]
    exact (packMag_of_unpack h).1

/-- A value's product with 1.0 is that value. -/
theorem mulVal_one {x : Word} (hx : unpack x ≠ .nan) : mulVal (unpack x) (.fin false (2 ^ 23) (-23)) = some x := by
  cases h : unpack x with
  | nan => exact absurd h hx
  | inf neg =>
    rw [eq_fInf_of_unpack h]
    cases neg <;> rfl
  | fin neg m e =>
    rw [mulVal, Bool.bne_false, ← sub_eq_add_neg]
    exact congrArg some (roundPack_of_unpack h 23)

/-- A product by 1.0 is the other factor (R107). -/
theorem fmul_fOne (d : Nat) (x : Word) : sameUpToNan x (fmul d x fOne) = true := by
  rw [fmul, show unpack fOne = .fin false (2 ^ 23) (-23) by decide]
  by_cases hx : unpack x = .nan
  · rw [hx, mulVal_nan_left]
    exact sameUpToNan_nanOr_none d hx
  · rw [mulVal_one hx]
    exact sameUpToNan_refl x

theorem natAbs_signed (neg : Bool) (n : Nat) : (signed neg n).natAbs = n := by cases neg <;> simp [signed]

theorem decide_signed_lt_zero (neg : Bool) {n : Nat} (hn : n ≠ 0) : decide (signed neg n < 0) = neg := by
  cases neg
  · simp [signed]
  · simpa [signed] using Nat.pos_of_ne_zero hn

/-- The aligned sum of +0.0 and a finite value is that value in the subnormal unit. -/
theorem addVal_zero_fin {x : Word} {neg : Bool} {m : Nat} {e : Int} (hx : unpack x = .fin neg m e) (hm : m ≠ 0) :
    addVal (.fin false 0 (-149)) (.fin neg m e) = some x := by
  obtain ⟨-, he⟩ := unpack_bounds hx
  obtain ⟨j, rfl⟩ : ∃ j : Nat, e = -149 + j := ⟨(e + 149).toNat, by omega⟩
  have hmin : min (-149) (-149 + j : Int) = -149 := by omega
  have hsum : alignedSum false 0 (-149) neg m (-149 + j) = signed neg (m * 2 ^ j) := by
    rw [alignedSum, hmin, add_sub_cancel_left, Int.toNat_natCast, Nat.zero_mul]
    exact zero_add _
  have hpos : m * 2 ^ j ≠ 0 := by positivity
  have hne : signed neg (m * 2 ^ j) ≠ 0 := by rwa [← Int.natAbs_ne_zero, natAbs_signed]
  have hpack := roundPack_of_unpack hx j
  rw [add_sub_cancel_right] at hpack
  simp only [addVal, hsum, if_neg hne, decide_signed_lt_zero neg hpos, natAbs_signed, hmin, hpack]

/-- A channel with -0.0 made +0.0 (R107). -/
def clearNegZero (w : Word) : Word := if w = 0x80000000 then 0 else w

/-- A sum with +0.0 is the other operand, but -0.0 gives +0.0 (R107). -/
theorem fadd_zero (d : Nat) (x : Word) : sameUpToNan (clearNegZero x) (fadd d 0 x) = true := by
  have hzero : unpack 0 = .fin false 0 (-149) := by decide
  unfold clearNegZero
  split
  · next hx =>
    subst hx
    rfl
  · next hne =>
    rw [fadd, hzero]
    cases hx : unpack x with
    | nan => exact sameUpToNan_nanOr_none d hx
    | inf neg =>
      rw [eq_fInf_of_unpack hx]
      exact sameUpToNan_refl _
    | fin neg m e =>
      rcases eq_or_ne m 0 with rfl | hm
      · obtain rfl := eq_fZero_of_unpack hx
        cases neg with
        | true => exact absurd rfl hne
        | false =>
          cases (unpack_fZero false).symm.trans hx
          exact sameUpToNan_refl _
      · rw [addVal_zero_fin hx hm]
        exact sameUpToNan_refl x

/-! ## Sums that are -0.0 -/

/-- A value other than zero, in a unit not below the subnormal one, has a significand other than zero. -/
theorem significand_ne_zero {n : Nat} {k : Int} (hn : n ≠ 0) (hk : -149 ≤ k) : significand n k ≠ 0 := by
  obtain hu | ⟨hm, -⟩ := (StandsFor.roundsTo (.inl rfl : StandsFor n n) hn k).normal
  · rw [significand, if_pos (by omega)]
    positivity
  · omega

/-- No such value is rounded to a zero: sums have no underflow to zero. -/
theorem roundPack_ne_fZero {n : Nat} {k : Int} (hn : n ≠ 0) (hk : -149 ≤ k) (neg neg' : Bool) :
    roundPack neg n k ≠ fZero neg' := by
  have hsig := significand_ne_zero hn hk
  rw [roundPack_eq hn, fZero, ne_eq, ← BitVec.toNat_inj, packMag_toNat, packMag_toNat, magOf]
  cases neg <;> cases neg' <;> simp <;> omega

/-- All that a sum can be: no value, an infinity, or a sum of finite values. -/
theorem addVal_cases (x y : FVal) : addVal x y = none ∨ (∃ neg, addVal x y = some (fInf neg)) ∨
    ∃ s m e t n f, x = .fin s m e ∧ y = .fin t n f := by
  fun_cases addVal x y
  case case1 | case2 | case4 => exact .inl rfl
  case case3 | case5 | case6 => exact .inr (.inl ⟨_, rfl⟩)
  case case7 | case8 => exact .inr (.inr ⟨_, _, _, _, _, _, rfl, rfl⟩)

/-- A sum of finite values is -0.0 only if the first is: an exact zero sum has the sign both operands have, and no other
sum is a zero. -/
theorem eq_negZero_of_fadd_fin {d : Nat} {a b : Word} {s t : Bool} {m n : Nat} {e f : Int}
    (ha : unpack a = .fin s m e) (hb : unpack b = .fin t n f) (h : fadd d a b = fZero true) : a = fZero true := by
  rw [fadd, ha, hb, addVal] at h
  split at h
  · next hsum =>
    have hsign : (s && t) = true := by simpa [nanOr, fZero, fSign_packMag] using congrArg fSign h
    obtain ⟨rfl, rfl⟩ := Bool.and_eq_true_iff.1 hsign
    obtain rfl : m = 0 := by
      have hzero : m * 2 ^ (e - min e f).toNat = 0 := by
        simp only [alignedSum, signed, if_true] at hsum
        omega
      exact (Nat.mul_eq_zero.1 hzero).resolve_right (by positivity)
    exact eq_fZero_of_unpack ha
  · next hsum =>
    have he := (unpack_bounds ha).2
    have hf := (unpack_bounds hb).2
    exact absurd h (roundPack_ne_fZero (by omega) (by omega) _ _)

/-- A sum is -0.0 only if its first operand is (R105 (b)). -/
theorem eq_negZero_of_fadd {d : Nat} {a b : Word} (h : fadd d a b = fZero true) : a = fZero true := by
  rcases addVal_cases (unpack a) (unpack b) with e | ⟨neg, e⟩ | ⟨_, _, _, _, _, _, ha, hb⟩
  · have hnan : isNan (fadd d a b) = true := by rw [fadd, e]; exact isNan_quietNan d
    rw [h] at hnan
    exact absurd hnan (by decide)
  · have hne : ∀ s, fInf s ≠ fZero true := by decide
    rw [fadd, e, nanOr_some] at h
    exact absurd h (hne neg)
  · exact eq_negZero_of_fadd_fin ha hb h

/-! ## Sums in order -/

/-- The sum of `n` terms added in index order from +0.0 (R101); sum `i` takes the free value `d i`. -/
def orderedSum (d : Nat → Nat) (p : Nat → Word) (n : Nat) : Word :=
  (List.range n).foldl (fun acc i => fadd (d i) acc (p i)) 0

@[simp] theorem orderedSum_zero (d : Nat → Nat) (p : Nat → Word) : orderedSum d p 0 = 0 := rfl

@[simp] theorem orderedSum_succ (d : Nat → Nat) (p : Nat → Word) (n : Nat) :
    orderedSum d p (n + 1) = fadd (d n) (orderedSum d p n) (p n) := by
  simp [orderedSum, List.range_succ]

/-- Sums of terms equal up to NaN are equal up to NaN, whatever the free values. -/
theorem orderedSum_congr {p p' : Nat → Word} {n : Nat} (d d' : Nat → Nat)
    (hp : ∀ i < n, sameUpToNan (p i) (p' i) = true) : sameUpToNan (orderedSum d p n) (orderedSum d' p' n) = true := by
  induction n with
  | zero => rfl
  | succ n ih =>
    rw [orderedSum_succ, orderedSum_succ]
    exact fadd_congr _ _ (ih fun i hi => hp i (by omega)) (hp n (by omega))

/-- A NaN operand makes a sum a NaN (R12). -/
theorem isNan_fadd {a b : Word} (d : Nat) (h : isNan a = true ∨ isNan b = true) : isNan (fadd d a b) = true :=
  (Bool.and_eq_true_iff.1 (nanOperandsGiveNan d a b h).1).1

/-- A NaN term makes the sum a NaN (R105 (c)). -/
theorem isNan_orderedSum {d : Nat → Nat} {p : Nat → Word} {n i : Nat} (hi : i < n) (hp : isNan (p i) = true) :
    isNan (orderedSum d p n) = true := by
  induction n with
  | zero => omega
  | succ n ih =>
    rw [orderedSum_succ]
    rcases Nat.lt_succ_iff_lt_or_eq.1 hi with hlt | rfl
    · exact isNan_fadd _ (.inl (ih hlt))
    · exact isNan_fadd _ (.inr hp)

/-- A sum from +0.0 is never -0.0 (R105 (b)). -/
theorem orderedSum_ne_negZero (d : Nat → Nat) (p : Nat → Word) (n : Nat) : orderedSum d p n ≠ fZero true := by
  induction n with
  | zero => rw [orderedSum_zero]; decide
  | succ n ih =>
    rw [orderedSum_succ]
    exact fun h => ih (eq_negZero_of_fadd h)

end Sys2Proof.Machine
end

section
/-! SUPPORT and PROOFS. The convolution: the kernel test and the turned kernel, a destination pixel's channel as one
ordered sum, and what CONV_APPLY stores. -/

namespace Sys2Proof.Machine

/-! ## The kernel -/

theorem kernelSide_ne_error_of_legal : ∀ n ∈ legalLengths, kernelSide n ≠ .error .invalidKernel := by
  decide +kernel

/-- The kernel test fails exactly outside the five lengths (R98). -/
theorem kernelSide_eq_error_iff (len : Nat) : kernelSide len = .error .invalidKernel ↔ len ∉ legalLengths := by
  have hlegal : ∀ m ≤ Config.mMax, m % 2 = 1 → m * m ∈ legalLengths := by decide
  refine ⟨fun h hlen => kernelSide_ne_error_of_legal len hlen h, fun hlen => ?_⟩
  obtain ⟨m, rfl, hodd, hmax, -⟩ | e := kernelSide_cases len
  · exact absurd (hlegal m hmax hodd) hlen
  · exact e

/-- A kernel of a legal length passes the test with the side whose square its length is (R98). -/
theorem kernelSide_mul_self {m : Nat} (h : m * m ∈ legalLengths) : kernelSide (m * m) = .ok m := by
  obtain ⟨m', hm, -, -, e⟩ | e := kernelSide_cases (m * m)
  · rw [e, Nat.mul_self_inj.1 hm]
  · exact absurd e (kernelSide_ne_error_of_legal _ h)

/-- Settles O43: the five lengths are squares of their sides, and every other length fails the test. -/
theorem kernelSideExactly : Obligations.KernelSideExactly := by
  intro len
  by_cases hlen : len ∈ legalLengths
  · obtain rfl | rfl | rfl | rfl | rfl : len = 1 ∨ len = 9 ∨ len = 25 ∨ len = 49 ∨ len = 81 := by
      simpa [legalLengths] using hlen
    · exact kernelSide_mul_self (m := 1) hlen
    · exact kernelSide_mul_self (m := 3) hlen
    · exact kernelSide_mul_self (m := 5) hlen
    · exact kernelSide_mul_self (m := 7) hlen
    · exact kernelSide_mul_self (m := 9) hlen
  · rw [(kernelSide_eq_error_iff len).2 hlen]
    simp only [legalLengths, List.mem_cons, List.not_mem_nil, or_false, not_or] at hlen
    simp [hlen]

/-- In a matrix of side m, row-major, the index of row m-1-a, column m-1-b is the mirror image of that of row a,
column b (R99). -/
theorem mirrored_index {m a b : Nat} (ha : a < m) (hb : b < m) :
    a * m + b < m * m ∧ m * m - 1 - (a * m + b) = (m - 1 - a) * m + (m - 1 - b) := by
  obtain ⟨c, rfl⟩ : ∃ c, m = a + 1 + c := ⟨m - (a + 1), by omega⟩
  have hsum : a * (a + 1 + c) + (c * (a + 1 + c) + (a + 1 + c)) = (a + 1 + c) * (a + 1 + c) := by ring
  rw [show a + 1 + c - 1 - a = c by omega]
  omega

theorem reversed_getElem? {k : List Word} {i : Nat} (hi : i < k.length) :
    (reversed k)[i]? = k[k.length - 1 - i]? :=
  List.getElem?_reverse hi

/-- Settles O44, by the mirrored index. -/
theorem kernelReversal : Obligations.KernelReversal := by
  intro k
  have hlen : (reversed k).length = k.length := List.length_reverse
  refine ⟨hlen, fun i hi => reversed_getElem? hi, fun m a b hk ha hb => ?_, fun h i hi => ?_, fun h => ?_⟩
  · obtain ⟨hlt, hmirror⟩ := mirrored_index ha hb
    rw [reversed_getElem? (by omega), hk, hmirror]
  · rw [← reversed_getElem? hi, h]
  · refine List.ext_getElem? fun i => ?_
    rcases lt_or_ge i k.length with hi | hi
    · rw [reversed_getElem? hi, h i hi]
    · rw [List.getElem?_eq_none (hlen ▸ hi), List.getElem?_eq_none hi]

end Sys2Proof.Machine
end

section
/-! SUPPORT and PROOFS. A destination pixel of a convolution, channel by channel: each channel is one ordered sum of
products of that channel's samples with the weights (R13, R101). -/

namespace Sys2Proof.Machine

/-! ## Channels -/

/-- The three channels of a colour (R13). -/
inductive Channel where
  | r | g | b

/-- The place of a channel in the order in which the three operations of a colour take their free values. -/
def Channel.index : Channel → Nat
  | .r => 0
  | .g => 1
  | .b => 2

/-- One channel of a colour. -/
def Color.channel (ch : Channel) (c : Color) : Word :=
  match ch with
  | .r => c.r
  | .g => c.g
  | .b => c.b

theorem Channel.forall_iff {p : Channel → Prop} : (∀ ch, p ch) ↔ p .r ∧ p .g ∧ p .b :=
  ⟨fun h => ⟨h _, h _, h _⟩, fun ⟨hr, hg, hb⟩ ch => by cases ch <;> assumption⟩

theorem Color.sameUpToNan_iff_channel (a b : Color) :
    a.sameUpToNan b = true ↔ ∀ ch, Machine.sameUpToNan (a.channel ch) (b.channel ch) = true := by
  rw [Channel.forall_iff]
  exact Color.sameUpToNan_iff a b

theorem Color.all_iff_channel (p : Word → Bool) (c : Color) : c.all p = true ↔ ∀ ch, p (c.channel ch) = true := by
  rw [Channel.forall_iff]
  simp [Color.all, Color.channel, and_assoc]

theorem Color.eq_of_channel {a b : Color} (h : ∀ ch, a.channel ch = b.channel ch) : a = b := by
  obtain ⟨hr, hg, hb⟩ := Channel.forall_iff.1 h
  exact (Color.mk.injEq ..).mpr ⟨hr, hg, hb⟩

@[simp] theorem Color.channel_black (ch : Channel) : Color.black.channel ch = 0 := by cases ch <;> rfl

@[simp] theorem Color.channel_map (f : Word → Word) (c : Color) (ch : Channel) :
    (c.map f).channel ch = f (c.channel ch) := by cases ch <;> rfl

@[simp] theorem channel_cadd (d : Nat) (a b : Color) (ch : Channel) :
    (cadd d a b).channel ch = fadd (d + ch.index) (a.channel ch) (b.channel ch) := by cases ch <;> rfl

@[simp] theorem channel_cscale (d : Nat) (c : Color) (w : Word) (ch : Channel) :
    (cscale d c w).channel ch = fmul (d + ch.index) (c.channel ch) w := by cases ch <;> rfl

/-! ## A destination pixel -/

/-- Product `i` of a channel of a destination pixel (R101). -/
def convProduct (d : Nat) (b : Buf) (k : List Word) (m col row : Nat) (ch : Channel) (i : Nat) : Word :=
  fmul (d + 6 * i + ch.index) ((sample b m col row i).channel ch) (weightAt (reversed k) i)

/-- A channel of a destination pixel is the sum of its products, in order from +0.0 (R13, R101). -/
theorem channel_convPixel (d : Nat) (b : Buf) (k : List Word) (m col row : Nat) (ch : Channel) :
    (convPixel d b k m col row).channel ch =
      orderedSum (fun i => d + 6 * i + 3 + ch.index) (convProduct d b k m col row ch) (m * m) := by
  rw [convPixel, orderedSum, ← Color.channel_black ch]
  refine (List.foldl_hom (Color.channel ch) fun acc i => ?_).symm
  rw [convTerm, channel_cadd, channel_cscale]
  rfl

/-- Two destination pixels whose samples agree on a channel agree on it up to NaN, whatever the free values. -/
theorem channel_convPixel_congr {b b' : Buf} {k : List Word} {m col row col' row' : Nat} {ch : Channel} (d d' : Nat)
    (hs : ∀ i, (sample b m col row i).channel ch = (sample b' m col' row' i).channel ch) :
    sameUpToNan ((convPixel d b k m col row).channel ch) ((convPixel d' b' k m col' row').channel ch) = true := by
  rw [channel_convPixel, channel_convPixel]
  refine orderedSum_congr _ _ fun i _ => ?_
  rw [convProduct, convProduct, hs i]
  exact fmul_congr _ _ (sameUpToNan_refl _) (sameUpToNan_refl _)

/-- A destination pixel does not depend on the free values, up to NaN (R104). -/
theorem convPixel_sameUpToNan (d d' : Nat) (b : Buf) (k : List Word) (m col row : Nat) :
    (convPixel d b k m col row).sameUpToNan (convPixel d' b k m col row) = true :=
  (Color.sameUpToNan_iff_channel _ _).2 fun _ => channel_convPixel_congr d d' fun _ => rfl

/-- Settles O47: a channel is an ordered sum from +0.0. -/
theorem convNeverNegativeZero : Obligations.ConvNeverNegativeZero := by
  intro d b k m col row
  refine (Color.all_iff_channel _ _).2 fun ch => decide_eq_true ?_
  rw [channel_convPixel]
  exact orderedSum_ne_negZero _ _ _

/-- A NaN product makes its channel of the destination pixel a NaN (R105 (a), (c)). -/
theorem isNan_channel_convPixel {b : Buf} {k : List Word} {m col row i : Nat} {ch : Channel} (d : Nat)
    (hi : i < m * m) (h : nanProduct ((sample b m col row i).channel ch) (weightAt (reversed k) i) = true) :
    isNan ((convPixel d b k m col row).channel ch) = true := by
  rw [channel_convPixel]
  refine isNan_orderedSum hi ?_
  rw [convProduct, isNan_fmul, ← nanProduct_eq, h]

/-- Settles O48, by the products that are NaNs; a NaN weight makes every product one. -/
theorem nanTermGivesNan : Obligations.NanTermGivesNan := by
  intro d b k m col row i hi p c w
  refine ⟨fun hw => (Color.all_iff_channel _ _).2 fun ch => isNan_channel_convPixel d hi ?_,
    isNan_channel_convPixel (ch := .r) d hi, isNan_channel_convPixel (ch := .g) d hi,
    isNan_channel_convPixel (ch := .b) d hi⟩
  simp [nanProduct, show isNan (weightAt (reversed k) i) = true from hw]

/-- PbGet reads a channel of the pixels without looking at the others (R13). -/
theorem channel_pbGet (b : Buf) (x y : Int) (ch : Channel) :
    (pbGet b x y).channel ch = (b.px.map (Color.channel ch)).getD (pxIndex b.width
      (clampi x 0 ((b.width : Int) - 1)).toNat (clampi y 0 ((b.height : Int) - 1)).toNat) 0 := by
  rw [← Color.channel_black ch, List.getD_map]
  rfl

/-- Sources of one size that agree on a channel have samples that agree on it. -/
theorem channel_sample_congr {b b' : Buf} {ch : Channel} (hw : b'.width = b.width) (hh : b'.height = b.height)
    (hpx : b'.px.map (Color.channel ch) = b.px.map (Color.channel ch)) (m col row i : Nat) :
    (sample b' m col row i).channel ch = (sample b m col row i).channel ch := by
  rw [sample, sample, channel_pbGet, channel_pbGet, hw, hh, hpx]

/-- Settles O49: a channel's samples and weights are all that its sum is made of. -/
theorem channelsAreIndependent : Obligations.ChannelsAreIndependent := by
  intro d d' b b' k m col row hw hh
  have hch (ch : Channel) (hpx : b'.px.map (Color.channel ch) = b.px.map (Color.channel ch)) :
      sameUpToNan ((convPixel d' b' k m col row).channel ch) ((convPixel d b k m col row).channel ch) = true :=
    channel_convPixel_congr d' d (channel_sample_congr hw hh hpx m col row)
  exact ⟨hch .r, hch .g, hch .b⟩

/-- Settles O52: every sample of a constant image is the constant. -/
theorem constantImageStaysConstant : Obligations.ConstantImageStaysConstant := by
  intro cap d d' m col row col' row' b c k hwf hconst
  have hsample (col row i : Nat) : sample b m col row i = c := hconst _ (pbGet_mem hwf _ _)
  refine (Color.sameUpToNan_iff_channel _ _).2 fun ch => channel_convPixel_congr d d' fun i => ?_
  rw [hsample, hsample]

end Sys2Proof.Machine
end

section
/-! SUPPORT and PROOFS. What CONV_APPLY stores: the pixels in the matrix form, up to NaN the same on every machine, and
the source itself under the identity kernel. -/

namespace Sys2Proof.Machine

/-! ## The matrix form -/

/-- A fold over the elements of a matrix, row by row, is one fold in row-major order. -/
theorem foldl_range_mul {α : Type} (f : α → Nat → α) (init : α) (n m : Nat) :
    (List.range (n * m)).foldl f init =
      (List.range n).foldl (fun acc a => (List.range m).foldl (fun acc b => f acc (a * m + b)) acc) init := by
  induction n with
  | zero => simp
  | succ n ih =>
    rw [Nat.succ_mul, List.range_add, List.foldl_append, ih, List.foldl_map, List.range_succ, List.foldl_append,
      List.foldl_cons, List.foldl_nil]

/-- The clamped pixel of a well-formed buffer is what PbGet reads (R72). -/
theorem clampedPixel_eq_pbGet {cap : Nat} {s : Buf} (hs : s.wf cap = true) (x y : Int) :
    clampedPixel s x y = pbGet s x y := by
  rw [clampedPixel, List.getD_eq_getElem?_getD, getElem?_eq_pbGet hs, Option.getD_some]

/-- The sample of row a, column b of the kernel's matrix (R100). -/
theorem sample_mul_add (s : Buf) {m b : Nat} (col row a : Nat) (hb : b < m) :
    sample s m col row (a * m + b) =
      pbGet s ((col : Int) - (m / 2 : Nat) + b) ((row : Int) - (m / 2 : Nat) + a) := by
  have hmod : (a * m + b) % m = b := by rw [Nat.mul_add_mod_self_right, Nat.mod_eq_of_lt hb]
  have hdiv : (a * m + b) / m = a := by
    rw [Nat.mul_comm, Nat.mul_add_div (by omega), Nat.div_eq_of_lt hb, Nat.add_zero]
  rw [sample, hmod, hdiv]

/-- The weight of row a, column b of the turned kernel (R99). -/
theorem weightAt_reversed {k : List Word} {m a b : Nat} (hk : k.length = m * m) (ha : a < m) (hb : b < m) :
    weightAt (reversed k) (a * m + b) = k.getD ((m - 1 - a) * m + (m - 1 - b)) 0 := by
  obtain ⟨-, -, hmatrix, -⟩ := kernelReversal k
  rw [weightAt, List.getD_eq_getElem?_getD, hmatrix m a b hk ha hb, List.getD_eq_getElem?_getD]

/-- The destination pixel in the matrix form of R106. -/
theorem convolvedPixel_eq {cap : Nat} {s : Buf} {k : List Word} {m : Nat} (hs : s.wf cap = true)
    (hk : k.length = m * m) (d col row : Nat) : convolvedPixel d s k m col row = convPixel d s k m col row := by
  rw [convPixel, foldl_range_mul, convolvedPixel]
  refine List.foldl_ext _ _ _ fun acc a ha => List.foldl_ext _ _ _ fun acc b hb => ?_
  rw [List.mem_range] at ha hb
  rw [convTerm, sample_mul_add s col row a hb, weightAt_reversed hk ha hb, clampedPixel_eq_pbGet hs]

/-! ## CONV_APPLY on a stored buffer -/

section Apply

variable {s : State} {rd rs : SlotIx} {k : List Word} {b : Buf}

/-- A convolution of a well-formed buffer with a kernel of a legal length (R102). -/
theorem convBuffer_of_legal {cap m : Nat} (hb : b.wf cap = true) (d : Nat) (hlegal : k.length ∈ legalLengths)
    (hk : k.length = m * m) : convBuffer cap d b k = .ok ⟨b.width, b.height, convPixels d b k m⟩ := by
  have hside : kernelSide k.length = .ok m := hk ▸ kernelSide_mul_self (hk ▸ hlegal)
  obtain ⟨m', hm', e⟩ | ⟨hbad, -⟩ := convBuffer_cases hb d k
  · cases hside.symm.trans hm'
    exact e
  · cases hside.symm.trans hbad

/-- CONV_APPLY whose computation ends with an error (R102, R118). -/
theorem exec_convApply_of_error {e : ErrKind} (hrd : rd.toNat < s.nbuf) (hne : rd ≠ rs) (hs : s.slot rs = .buf b)
    (hconv : convBuffer s.pbCap s.draws b k = .error e) :
    exec (.convApply rd rs k) s = .next (s.raise e (some rd)) := by
  refine (ifLegal_of_wf _ (wellFormed_convApply hrd (State.lt_nbuf_of_slot hs) hne)).trans ?_
  rw [withBuffer_buf hs, hconv]
  rfl

/-- CONV_APPLY succeeds only from a buffer into another slot, an existing one, and stores there what its computation
answers (R102). -/
theorem exec_convApply_ok {t : State} (h : exec (.convApply rd rs k) s = .next t) (hok : t.status = codeOk) :
    ∃ b r, s.slot rs = .buf b ∧ convBuffer s.pbCap s.draws b k = .ok r ∧ t.pb[rd.toNat]? = some (.buf r) := by
  obtain ⟨⟨hrd, -⟩, -⟩ : (rd.toNat < s.nbuf ∧ rs.toNat < s.nbuf) ∧ rd ≠ rs := by
    simpa [Instr.wellFormed, Instr.slotsExist, Instr.slotsDiffer, Instr.slotNamed] using wellFormed_of_exec_ok h hok
  rcases execConvApply_cases h with ⟨-, rfl⟩ | ⟨-, ⟨b, r, hs, hconv, rfl⟩ | ⟨b, e, -, -, rfl⟩ | ⟨-, rfl⟩⟩
  · exact absurd hok (State.raise_status_ne_ok _ _ _)
  · exact ⟨b, r, hs, hconv, List.getElem?_set_self hrd⟩
  · exact absurd hok (State.raise_status_ne_ok _ _ _)
  · exact absurd hok (State.raise_status_ne_ok _ _ _)

end Apply

/-- Settles O45: the two errors before the kernel test are O21's and O22's, the test's is O43's, and a pixel of the
buffer stored is its matrix form with free values of its own. -/
theorem convApplyResult : Obligations.ConvApplyResult := by
  intro s rd rs k v hget hwf hrd
  have hs : s.slot rs = v := State.slot_of_getElem? hget
  refine ⟨by simp [encode, header_eq_ofNat, Opcode.byte], ?_, ?_, ?_, ?_⟩
  · rintro rfl
    exact illegalSlotsEndCommand _ s (by simp [Instr.wellFormed, Instr.slotsDiffer])
  · rintro hne rfl
    obtain ⟨-, -, -, -, -, hempty⟩ := emptySlotEndsCommand s rs hget
    exact hempty rd k hrd hne
  · rintro b hne rfl hlen
    obtain ⟨m, hm, -⟩ | ⟨-, e⟩ := convBuffer_cases hwf s.draws k
    · cases hm.symm.trans ((kernelSide_eq_error_iff _).2 hlen)
    · exact exec_convApply_of_error hrd hne hs e
  · rintro b m hne rfl hlegal hk
    refine ⟨convPixels s.draws b k m, _, length_convPixels _ _ _ _,
      exec_convApply_of_ok hrd hne hs (convBuffer_of_legal hwf s.draws hlegal hk), fun d col row hcol hrow => ?_⟩
    rw [convolvedPixel_eq hwf hk]
    exact ⟨_, convPixels_getElem? _ _ _ _ hcol hrow, convPixel_sameUpToNan _ _ _ _ _ _ _⟩

/-! ## The pixels in one sequence -/

/-- The destination pixels, by their row-major index. -/
theorem convPixels_eq_map (d : Nat) (b : Buf) (k : List Word) (m : Nat) :
    convPixels d b k m = (List.range (b.width * b.height)).map fun i =>
      convPixel (pixelDraw d b m (i % b.width) (i / b.width)) b k m (i % b.width) (i / b.width) :=
  flatMap_range_eq_map (fun row col => convPixel (pixelDraw d b m col row) b k m col row) _ _

/-- A convolution's pixels do not depend on the free values, up to NaN (R104). -/
theorem convPixels_forall₂ (d d' : Nat) (b : Buf) (k : List Word) (m : Nat) :
    List.Forall₂ (fun c c' => Color.sameUpToNan c c' = true) (convPixels d b k m) (convPixels d' b k m) := by
  rw [convPixels_eq_map, convPixels_eq_map, List.forall₂_map_left_iff, List.forall₂_map_right_iff, List.forall₂_same]
  exact fun i _ => convPixel_sameUpToNan _ _ _ _ _ _ _

/-- Settles O46: both machines store the pixels of one convolution, with free values of their own. -/
theorem convDeterministicUpToNan : Obligations.ConvDeterministicUpToNan := by
  intro s s' t t' rd rs k b hget hget' hwf hcap hx hx' hok hok'
  obtain ⟨b₁, r, hs, hconv, hpb⟩ := exec_convApply_ok hx hok
  obtain ⟨b₂, r', hs', hconv', hpb'⟩ := exec_convApply_ok hx' hok'
  cases hs.symm.trans (State.slot_of_getElem? hget)
  cases hs'.symm.trans (State.slot_of_getElem? hget')
  rw [hcap] at hconv'
  obtain ⟨m, hm, e⟩ | ⟨-, e⟩ := convBuffer_cases hwf s.draws k
  · obtain ⟨m', hm', e'⟩ | ⟨-, e'⟩ := convBuffer_cases hwf s'.draws k
    · cases hm.symm.trans hm'
      cases e.symm.trans hconv
      cases e'.symm.trans hconv'
      exact ⟨_, _, hpb, hpb', convPixels_forall₂ _ _ _ _ _⟩
    · cases e'.symm.trans hconv'
  · cases e.symm.trans hconv

/-! ## The identity kernel -/

/-- The 1x1 kernel of weight 1.0 gives a pixel back, but -0.0 as +0.0 and a NaN as a NaN (R107). -/
theorem convPixel_identity (d : Nat) (b : Buf) {col row : Nat} (hcol : col < b.width) (hrow : row < b.height) :
    Color.sameUpToNan ((pxAt b.px (pxIndex b.width col row)).map clearNegZero)
      (convPixel d b [fOne] 1 col row) = true := by
  have hsample : sample b 1 col row 0 = pxAt b.px (pxIndex b.width col row) := by
    simp [sample, pbGet_inBounds b hcol hrow]
  refine (Color.sameUpToNan_iff_channel _ _).2 fun ch => ?_
  rw [channel_convPixel, Color.channel_map, ← hsample]
  generalize hx : (sample b 1 col row 0).channel ch = x
  have hprod : convProduct d b [fOne] 1 col row ch 0 = fmul (d + ch.index) x fOne := by rw [← hx]; rfl
  rw [Nat.mul_one, orderedSum_succ, orderedSum_zero, hprod]
  exact sameUpToNan_trans (fadd_zero 0 x) (fadd_congr _ _ (sameUpToNan_refl _) (fmul_fOne _ x))

theorem px_eq_map_pxAt {cap : Nat} {b : Buf} (hb : b.wf cap = true) :
    b.px = (List.range (b.width * b.height)).map (pxAt b.px) := by
  obtain ⟨-, -, -, -, hlen, -⟩ := (Buf.wf_iff cap b).1 hb
  refine List.ext_getElem (by simp [hlen]) fun i hi _ => ?_
  rw [List.getElem_map, List.getElem_range, pxAt, List.getD_eq_getElem _ _ hi]

/-- What the identity kernel makes of a well-formed buffer (R107). -/
theorem convBuffer_identity {cap d : Nat} {b r : Buf} (hwf : b.wf cap = true)
    (h : convBuffer cap d b [fOne] = .ok r) : r.width = b.width ∧ r.height = b.height ∧
      List.Forall₂ (fun c c' => Color.sameUpToNan (c.map clearNegZero) c' = true) b.px r.px := by
  rw [convBuffer_of_legal (m := 1) hwf d (by decide) rfl] at h
  cases h
  refine ⟨rfl, rfl, ?_⟩
  dsimp only
  rw [px_eq_map_pxAt hwf, convPixels_eq_map, List.forall₂_map_left_iff, List.forall₂_map_right_iff, List.forall₂_same]
  intro i hi
  obtain ⟨hw, -⟩ := (Buf.wf_iff cap b).1 hwf
  have hindex : pxIndex b.width (i % b.width) (i / b.width) = i := Nat.div_add_mod' i b.width
  have hpixel := convPixel_identity (pixelDraw d b 1 (i % b.width) (i / b.width)) b (Nat.mod_lt i hw)
    (Nat.div_lt_of_lt_mul (List.mem_range.1 hi))
  rwa [hindex] at hpixel

/-- Settles O50, pixel by pixel: a product by 1.0 keeps a channel, and the sum with +0.0 clears a -0.0. -/
theorem identityKernel : Obligations.IdentityKernel :=
  fun _ _ _ _ hwf h => convBuffer_identity hwf h

/-! ## The identity kernel on a decoded image -/

/-- Neither a NaN nor -0.0: a channel that the identity kernel keeps. -/
def Plain (w : Word) : Prop := isNan w = false ∧ w ≠ 0x80000000

/-- What is equal up to NaN to a plain channel, its -0.0 cleared, is that channel. -/
theorem Plain.eq_of_sameUpToNan {w w' : Word} (hw : Plain w) (h : sameUpToNan (clearNegZero w) w' = true) :
    w = w' := by
  obtain ⟨hnan, hzero⟩ := hw
  rw [clearNegZero, if_neg hzero, sameUpToNan_iff] at h
  exact h.resolve_right fun hn => Bool.eq_false_iff.1 hnan hn.1

/-- A sample's channel is finite, and a quotient of positive patterns (R83). -/
theorem plain_dec (x : Byte) : Plain (dec x) := by
  have hnan : isNan (dec x) = false := not_isNan_of_isFinite (dec_nearest x).1
  have hofU8 : fSign (ofU8 x) = false := by
    obtain ⟨mag, e⟩ := roundPack_eq_packMag false x.toNat 0
    rw [ofU8, e, fSign_packMag]
  have hsign : fSign (dec x) = false := by
    rw [dec, fSign_fdiv hnan, hofU8]
    rfl
  refine ⟨hnan, fun h => ?_⟩
  rw [h] at hsign
  exact absurd hsign (by decide)

/-- Every channel of a decoded image is some sample's. -/
theorem plain_of_decodeBmp {cap : Nat} {src : Option (List Byte)} {b : Buf} (h : decodeBmp cap src = .ok b) :
    ∀ c ∈ b.px, ∀ ch, Plain (c.channel ch) := by
  obtain ⟨bytes, w, h', rfl⟩ := exists_imageAt_of_decodeBmp h
  intro c hc ch
  obtain ⟨i, -, rfl⟩ := List.mem_map.1 hc
  cases ch <;> exact plain_dec _

/-- The identity kernel keeps a buffer of plain channels as it is (R107). -/
theorem convBuffer_identity_of_plain {cap d : Nat} {b r : Buf} (hwf : b.wf cap = true)
    (hplain : ∀ c ∈ b.px, ∀ ch, Plain (c.channel ch)) (hr : convBuffer cap d b [fOne] = .ok r) : r = b := by
  obtain ⟨w, h, px⟩ := r
  obtain ⟨rfl, rfl, hpx⟩ := convBuffer_identity hwf hr
  have hsame : List.Forall₂ (· = ·) b.px px :=
    ((List.forall₂_and_left _ _).2 ⟨hplain, hpx⟩).imp fun c c' ⟨hc, hcc'⟩ => Color.eq_of_channel fun ch =>
      (hc ch).eq_of_sameUpToNan <| by simpa using (Color.sameUpToNan_iff_channel _ _).1 hcc' ch
  rw [List.forall₂_eq_eq_eq] at hsame
  rw [← hsame]

/-- BMP_DECODE succeeds only into an existing slot, and stores there the image that SRC decodes to (R85). -/
theorem exec_bmpDecode_ok {s t : State} {rd : SlotIx} (h : exec (.bmpDecode rd) s = .next t)
    (hok : t.status = codeOk) :
    ∃ b, decodeBmp s.pbCap s.src = .ok b ∧ t.pbCap = s.pbCap ∧ t.pb[rd.toNat]? = some (.buf b) := by
  have hrd : rd.toNat < s.nbuf := by
    simpa [Instr.wellFormed, Instr.slotsExist, Instr.slotsDiffer, Instr.slotNamed] using wellFormed_of_exec_ok h hok
  rcases execBmpDecode_cases h with ⟨-, rfl⟩ | ⟨-, ⟨b, hb, rfl⟩ | ⟨e, -, rfl⟩⟩
  · exact absurd hok (State.raise_status_ne_ok _ _ _)
  · exact ⟨b, hb, rfl, List.getElem?_set_self hrd⟩
  · exact absurd hok (State.raise_status_ne_ok _ _ _)

/-- Settles O51: no channel decoded is a NaN or -0.0, and the identity kernel keeps all others. -/
theorem identityKernelOfDecodedImage : Obligations.IdentityKernelOfDecodedImage := by
  intro s t u rd rs hdec hok hconv hok'
  obtain ⟨img, himg, hcap, hpb⟩ := exec_bmpDecode_ok hdec hok
  obtain ⟨b, r, hs, hr, hpb'⟩ := exec_convApply_ok hconv hok'
  cases hs.symm.trans (State.slot_of_getElem? hpb)
  rw [hcap] at hr
  rw [hpb, hpb', convBuffer_identity_of_plain (decodeBmp_wf himg) (plain_of_decodeBmp himg) hr]

end Sys2Proof.Machine
end

section
/-! SUPPORT and PROOFS. Errors: what an error completion does to the state, which errors each command has, and the idle
engine. -/

namespace Sys2Proof.Machine

/-! ## Error completion -/

/-- Word 0 of a response is the completion code as a number (R60). -/
theorem statusWord_eq_ofNat (c : BitVec 8) : statusWord c = BitVec.ofNat 32 c.toNat :=
  (BitVec.ofNat_toNat 32 c).symm

/-- The buffer file after an error of a legal command: the slot the error empties is Empty, the others are as before
(R118, items 3 and 4). -/
def emptied (slot : Option SlotIx) (pb : List Slot) : List Slot :=
  match slot with
  | some rd => pb.set rd.toNat .empty
  | none => pb

/-- The whole state after an error completion (R118). -/
theorem State.raise_eq (s : State) (e : ErrKind) (slot : Option SlotIx) : s.raise e slot =
    { s with
      status := errCode e
      outbox := s.outbox ++ [⟨[statusWord (errCode e)], []⟩]
      pb := emptied slot s.pb } := by
  cases slot <;> rfl

/-- Only a buffer-producing command's destination is emptied (R118, item 3). -/
theorem emptied_errorSlot (i : Instr) (pb : List Slot) :
    emptied (errorSlot i) pb = if i.producesBuffer then emptied i.rd? pb else pb := by
  rw [errorSlot, apply_ite (emptied · pb)]
  rfl

/-- A command that does not end with success is an illegal one, or a legal one that raised an error. -/
theorem exec_error_cases {i : Instr} {s t : State} (h : exec i s = .next t) (hne : t.status ≠ codeOk) :
    (i.wellFormed s.nbuf = false ∧ t = s.illegal) ∨
      (i.wellFormed s.nbuf = true ∧ ∃ e, t = s.raise e (errorSlot i)) := by
  obtain ⟨u, hu, hcases⟩ := exec_cases i s
  obtain rfl : u = t := next_inj (h.symm.trans hu)
  rcases hcases with hill | ⟨hw, ⟨pb, n, words, snk, rfl, -⟩ | hraise⟩
  · exact .inl hill
  · exact absurd rfl hne
  · exact .inr ⟨hw, hraise⟩

/-- Settles O18: an illegal command empties no slot, a legal one that raises an error its `errorSlot`. -/
theorem commandErrorFrame : Obligations.CommandErrorFrame := by
  intro i s t h hne
  rcases exec_error_cases h hne with ⟨hw, rfl⟩ | ⟨hw, e, rfl⟩
  · rw [if_neg fun hlegal => absurd (hw.symm.trans hlegal.1) (by decide)]
    rfl
  · have hw' : i.wellFormed s.pb.length = true := hw
    rw [State.raise_eq, emptied_errorSlot, statusWord_eq_ofNat]
    simp only [hw', true_and]
    rfl

/-- Settles O19: a packet that decodes is the case of its command, which is legal; any other is IllegalCommand. -/
theorem errorCompletionExactly : Obligations.ErrorCompletionExactly := by
  intro s t pk src ok rest hin h hne
  rcases step_cases h with ⟨hin', -⟩ | ⟨_, hin', -⟩ | ⟨_, _, _, _, e, hin', hdec, rfl⟩ |
    ⟨_, _, _, _, i, hin', hdec, hx⟩ <;> cases hin.symm.trans hin'
  · have hdec' : decode s.pb.length pk = .error e := hdec
    rw [hdec']
    rfl
  · have hdec' : decode s.pb.length pk = .ok i := hdec
    obtain ⟨-, hw⟩ := decodeThenEncode _ _ _ hdec'
    refine (commandErrorFrame i (s.present src ok rest) t hx hne).trans ?_
    simp only [State.present_pb, hw, hdec']
    cases i <;> rfl

/-! ## The errors of each command -/

/-- PbCreate refuses a size, or a buffer over the capacity (R79). -/
theorem pbCreate_error {cap : Nat} {w h : Int} {e : ErrKind} (he : pbCreate cap w h = .error e) :
    e = .invalidDimension ∨ e = .capacityExceeded := by
  rcases pbCreate_cases cap w h with ⟨-, hr⟩ | ⟨-, -, -, hr⟩ | ⟨-, -, -, hr⟩
  · exact .inl (Except.error.inj (he.symm.trans hr))
  · exact .inr (Except.error.inj (he.symm.trans hr))
  · cases he.symm.trans hr

/-- The codes of BMP_DECODE's errors (R85), one for each refusing branch of its closed form. -/
theorem decodeOutcome_error {cap : Nat} {src : Option (List Byte)} {c : BitVec 8}
    (hc : decodeOutcome cap src = .error c) : c.toNat ∈ [1, 2, 3, 8] := by
  cases src with
  | none => cases hc; decide
  | some b =>
    rw [decodeOutcome_some] at hc
    split_ifs at hc <;> cases hc <;> decide

theorem decodeBmp_error {cap : Nat} {src : Option (List Byte)} {e : ErrKind} (he : decodeBmp cap src = .error e) :
    (errCode e).toNat ∈ [1, 2, 3, 8] :=
  decodeOutcome_error (cap := cap) (src := src) (by rw [← decodeBmp_mapError, he]; rfl)

/-- A stored buffer already fits, so only the kernel can be wrong (R102). -/
theorem convBuffer_error {cap d : Nat} {b : Buf} {k : List Word} {e : ErrKind} (hb : b.wf cap = true)
    (he : convBuffer cap d b k = .error e) : e = .invalidKernel := by
  rcases convBuffer_cases hb d k with ⟨m, -, hr⟩ | ⟨-, hr⟩
  · cases he.symm.trans hr
  · exact Except.error.inj (he.symm.trans hr)

/-- Settles O20: whatever way a command ends, its code is in the list, and the three computations that can fail do so
with the errors above. -/
theorem errorsOfEachCommand : Obligations.ErrorsOfEachCommand := by
  intro i s t hmem h
  cases i with
  | pbCreate rd w h' =>
    rcases execPbCreate_cases h with ⟨-, rfl⟩ | ⟨-, ⟨b, -, rfl⟩ | ⟨e, he, rfl⟩⟩
    · simp [errCode]
    · simp [codeOk]
    · rcases pbCreate_error he with rfl | rfl <;> simp [errCode]
  | pbGet rs x y =>
    rcases execPbGet_cases h with ⟨-, rfl⟩ | ⟨-, ⟨b, -, rfl⟩ | ⟨-, rfl⟩⟩ <;> simp [errCode, codeOk]
  | pbSet rd x y r g b =>
    rcases execPbSet_cases h with ⟨-, rfl⟩ | ⟨-, ⟨o, -, -, rfl⟩ | ⟨o, -, -, rfl⟩ | ⟨-, rfl⟩⟩ <;>
      simp [errCode, codeOk]
  | pbWidth rs =>
    rcases execPbWidth_cases h with ⟨-, rfl⟩ | ⟨-, ⟨b, -, rfl⟩ | ⟨-, rfl⟩⟩ <;> simp [errCode, codeOk]
  | pbHeight rs =>
    rcases execPbHeight_cases h with ⟨-, rfl⟩ | ⟨-, ⟨b, -, rfl⟩ | ⟨-, rfl⟩⟩ <;> simp [errCode, codeOk]
  | bmpDecode rd =>
    rcases execBmpDecode_cases h with ⟨-, rfl⟩ | ⟨-, ⟨b, -, rfl⟩ | ⟨e, he, rfl⟩⟩
    · simp [errCode]
    · simp [codeOk]
    · rw [State.raise_status]
      exact List.mem_cons_of_mem _ (List.mem_cons_of_mem _ (decodeBmp_error he))
  | bmpEncode rs =>
    rcases execBmpEncode_cases h with ⟨-, rfl⟩ | ⟨-, ⟨b, -, -, rfl⟩ | ⟨b, -, -, rfl⟩ | ⟨-, rfl⟩⟩ <;>
      simp [errCode, codeOk]
  | convApply rd rs k =>
    rcases execConvApply_cases h with ⟨-, rfl⟩ | ⟨-, ⟨b, d, -, -, rfl⟩ | ⟨b, e, hb, he, rfl⟩ | ⟨-, rfl⟩⟩
    · simp [errCode]
    · simp [codeOk]
    · rw [State.raise_status, convBuffer_error (Memory.wf_of_slot hmem hb) he]
      simp [errCode]
    · simp [errCode]

/-! ## The idle engine -/

/-- Settles O9, by the step's equation for an empty inbox. -/
theorem idleEngineHoldsState : Obligations.IdleEngineHoldsState := by
  intro s hin
  simp only [step, hin]

end Sys2Proof.Machine
end

section
/-! SUPPORT and PROOFS. Reset between commands, and the one response of every packet. -/

namespace Sys2Proof.Machine

/-! ## The response of a command -/

/-- An error's reply is its completion code alone (R60, R118). -/
theorem exec_reply_of_error {i : Instr} {s t : State} (h : exec i s = .next t) (hne : t.status ≠ codeOk) :
    t.outbox = s.outbox ++ [⟨[statusWord t.status], []⟩] := by
  rcases exec_error_cases h hne with ⟨-, rfl⟩ | ⟨-, e, rfl⟩
  · rfl
  · rw [State.raise_outbox, State.raise_status]

/-- A command answers once, and only a success has result words or SNK bytes (R60, R28). -/
theorem exec_reply_empty_of_error {i : Instr} {s t : State} (h : exec i s = .next t) :
    ∃ words snk, t.outbox = s.outbox ++ [⟨statusWord t.status :: words, snk⟩] ∧
      (t.status ≠ codeOk → words = [] ∧ snk = []) := by
  by_cases hok : t.status = codeOk
  · obtain ⟨words, snk, hout⟩ := exec_reply h
    exact ⟨words, snk, hout, absurd hok⟩
  · exact ⟨[], [], exec_reply_of_error h hok, fun _ => ⟨rfl, rfl⟩⟩

/-- Settles O10: a packet is rejected with code 6, or decodes to a command, which always ends and answers once. -/
theorem everyPacketIsAnswered : Obligations.EveryPacketIsAnswered := by
  intro s pk src ok rest hin
  cases hdec : decode s.pb.length pk with
  | error e =>
    have hstep := stepEndsIllegalPacket s pk src ok rest hin ((rejectedExactlyWhenIllegal _ _).1 ⟨e, hdec⟩)
    exact ⟨_, [], [], hstep, rfl, rfl, errCode_le .illegalCommand, fun _ => ⟨rfl, rfl⟩⟩
  | ok i =>
    obtain ⟨t, ht, -⟩ := exec_cases i (s.present src ok rest)
    have hstep : step s = .next t := (stepRunsDecodedCommand s pk src ok rest i hin hdec).trans ht
    obtain ⟨-, -, hinbox⟩ := exec_keeps_host ht
    obtain ⟨words, snk, hout, herr⟩ := exec_reply_empty_of_error ht
    rw [statusWord_eq_ofNat] at hout
    exact ⟨t, words, snk, hstep, hinbox, hout, exec_status_le ht, herr⟩

/-! ## Reset -/

/-- Settles O6, by the step's equation for a reset. -/
theorem stepResetsBlock : Obligations.StepResetsBlock := by
  intro s rest hin
  simp only [step, hin]
  rfl

end Sys2Proof.Machine
end
